-- ==== Sys2Proof/Word.lean ====
section
/-! DEFINITION. The block's data widths (spec/00_scope.md R5, R7): a byte, the 16-bit checksum value, and the plain
data a byte buffer is held in. What is computed with them stands in Sys2Proof/Machine/. -/

namespace Sys2Proof

/-- A `u8` (R7): every field of a frame but the checksum. -/
abbrev Byte := BitVec 8

/-- A `u16` (R7): a checksum value. -/
abbrev Word := BitVec 16

/-- A byte buffer (`Stage`, `TxData`), as (cell index, byte) pairs in the canonical form of
`Sys2Proof.Machine.Memory.wf`. -/
abbrev Memory := List Host.Cell

end Sys2Proof
end

