-- ==== Sys2Proof/Config.lean ====
section
/-! DEFINITION. What is fixed when the block is constructed, and the values the spec leaves open. Each `opaque`
constant here has no body: nothing can be proved about its value beyond its type. -/

namespace Sys2Proof

/-- `ADDR_MODE` (spec/10_state.md R14): the node's board address configuration. Every `addressed a` is legal (the
enum reading, spec/92_eei_decisions.md D3; log 18). -/
inductive AddrMode where
  | addressed (a : Byte)
  | promiscuous
  deriving DecidableEq, Repr, Inhabited

namespace Config

/-- The value `ADDR_MODE` was constructed with (R6, R14; a PARAM of R5). Log 1. -/
opaque addrMode : AddrMode

/-- `STATE_SCREEN_VALUE` (R5, R15): the number a promiscuous node's board address reads back as; no source gives
it (spec/91_not_in_source.md N2). Log 18. -/
opaque stateScreenValue : Byte

/-- The places RESET leaves unspecified that hold one byte (spec/70_reset_and_hazards.md R96). -/
inductive ByteSlot where
  | rxSlave | rxCmd | rxLen
  | txSlave | txCmd | txLen
  | stage (i : Nat)
  | txData (i : Nat)
  deriving DecidableEq, Repr

/-- The places RESET leaves unspecified that hold a `u16` (R96). -/
inductive WordSlot where
  | rxCks | txCks
  deriving DecidableEq, Repr

/-- The byte the `draw`-th RESET leaves in a slot: any byte (R96). Log 3. -/
opaque freeByte (draw : Nat) (slot : ByteSlot) : Byte

/-- The `u16` the `draw`-th RESET leaves in a slot: any value (R96). Log 3. -/
opaque freeWord (draw : Nat) (slot : WordSlot) : Word

/-- What the `draw`-th RESET leaves in `rx_idx`: any value of its range 0..255 (R20, R96). Log 3. -/
opaque freeIndex (draw : Nat) : Fin 256

/-- What the `draw`-th RESET leaves in `tx_pos`: any value of its range 0..262 (R26, R96). Log 3. -/
opaque freeOffset (draw : Nat) : Fin 263

end Config

end Sys2Proof
end

