-- ==== Sys2Proof/Machine/Types.lean ====
section
/-! DEFINITION. The closed sets of names and the records the block works with. -/

namespace Sys2Proof.Machine

/-- `rx_state` (spec/10_state.md R16): which byte of a frame comes next. -/
inductive RxState where
  | seekStart | hdrSlave | hdrCmd | hdrLen | payload | cksHi | cksLo | validate | emit
  deriving DecidableEq, Repr

/-- `tx_state` (R24). -/
inductive TxState where
  | idle | send
  deriving DecidableEq, Repr

/-- Why a candidate frame was dropped (spec/60_exceptions.md R83). -/
inductive Reason where
  | endMismatch | addressMismatch | checksumMismatch
  deriving DecidableEq, Repr

/-- The value the decoder hands to its packet sink (R23). -/
structure Packet where
  slave   : Byte
  cmd     : Byte
  len     : Byte
  payload : List Byte
  deriving DecidableEq, Repr

/-- An encode request as a requester presents it (spec/41_encoder.md R60). -/
structure Request where
  slave : Byte
  cmd   : Byte
  data  : List Byte
  deriving DecidableEq, Repr

/-- The event alphabet (R28). -/
inductive Event where
  | rxTake (b : Byte)
  | discard (reason : Reason)
  | pktOut (pkt : Packet)
  | encAccept (slave cmd : Byte) (data : List Byte)
  | txOut (b : Byte)
  | reset
  deriving DecidableEq, Repr

/-- `Out` of spec/42_decoder.md R79: what becomes of one candidate frame. -/
inductive FrameOut where
  | pkt (p : Packet)
  | disc (reason : Reason)
  deriving DecidableEq, Repr

/-- Where DECODE is left at the end of its bytes (R79). -/
inductive EndState where
  | seekStart | pending
  deriving DecidableEq, Repr

/-- What a combinational checksum port answered (spec/30_encoding.md R50). Log 10. -/
inductive CksResult where
  | sum (value : Word)
  | verdict (ok : Bool)
  deriving DecidableEq, Repr

/-- One move of the environment (spec/60_exceptions.md R93): the lines of R51 but for CFG, and a call of either
checksum port (R50). Log 6. -/
inductive EnvMove where
  | rx (bytes : List Byte)
  | enc (r : Request)
  | sink (ready : Bool)
  | pkt (ready : Bool)
  | reset
  | cks (slave cmd len : Byte) (data : List Byte)
  | cksCheck (slave cmd len : Byte) (data : List Byte) (cand : Word)
  deriving DecidableEq, Repr

/-- Whose turn it is (R93: no fixed interleaving). The encoder's turn names which presented request it would take
(R61: no fixed order among requesters). Log 5, log 7. -/
inductive Turn where
  | decoder
  | encoder (pick : Nat)
  | environment
  deriving DecidableEq, Repr

end Sys2Proof.Machine
end

