-- ==== Sys2Proof/Machine/Frame.lean ====
section
/-! DEFINITION. The wire frame and the pure functions over it: the constants (spec/00_scope.md R5), the checksum
(spec/40_checksum.md R52-R53), ENCODE (spec/41_encoder.md R59), the address filter and the checks of VALIDATE
(spec/42_decoder.md R75-R76, spec/60_exceptions.md R84) and DECODE (R79). -/

namespace Sys2Proof.Machine

/-- `START` (R5). UNVERIFIED: an unaudited literal, log 15. -/
def startByte : Byte := 0x3A

/-- `END` (R5). UNVERIFIED: an unaudited literal, log 15. -/
def endByte : Byte := 0x0D

/-- `MAX_LEN` (R5): the largest payload, and the number of cells of each buffer (R19, R25). -/
def maxLen : Nat := 255

/-- `hi(v) = v[15:8]` (R8). -/
def hi (v : Word) : Byte := v.extractLsb' 8 8

/-- `lo(v) = v[7:0]` (R8). -/
def lo (v : Word) : Byte := v.extractLsb' 0 8

/-- `(h << 8) | l` (R8, R43): the big-endian join of two bytes. -/
def join (h l : Byte) : Word := h ++ l

/-- `a +16 b` with `b` a zero-extended byte (R8). -/
def add16 (a : Word) (b : Byte) : Word := a + b.setWidth 16

/-- The exact sum `S` before reduction (R52, R54). -/
def exactSum (slave cmd len : Byte) (data : List Byte) : Nat :=
  startByte.toNat + slave.toNat + cmd.toNat + len.toNat + endByte.toNat + (data.map BitVec.toNat).sum

/-- `CKS` (R52): the exact sum modulo 65536. -/
def cks (slave cmd len : Byte) (data : List Byte) : Word :=
  BitVec.ofNat 16 (exactSum slave cmd len data)

/-- `CKS.CHECK` (R53): equality in all 16 bits. -/
def cksCheck (slave cmd len : Byte) (data : List Byte) (cand : Word) : Bool :=
  cks slave cmd len data == cand

/-- The running sum of R57: `0x3A`, then every byte of `bs`, then `0x0D`, one at a time with `+16`. -/
def runningSum (bs : List Byte) : Word :=
  add16 (bs.foldl add16 (startByte.setWidth 16)) endByte

/-- `len(data)` as the length byte (R43: `L = len(data)`). -/
def lenByte (data : List Byte) : Byte := BitVec.ofNat 8 data.length

/-- `ENCODE` (R59), for a request whose data is at most `maxLen` bytes. -/
def encodeFrame (slave cmd : Byte) (data : List Byte) : List Byte :=
  let c := cks slave cmd (lenByte data) data
  [startByte, slave, cmd, lenByte data] ++ data ++ [hi c, lo c, endByte]

/-- `ADDR_OK` (R76). -/
def addrOk : AddrMode → Byte → Bool
  | .addressed a, s => s == a
  | .promiscuous, _ => true

/-- The three checks of VALIDATE in the order of R84: none when the frame is admitted, else the one reason. -/
def verdict (m : AddrMode) (slave cmd len : Byte) (data : List Byte) (cand : Word) (e : Byte) : Option Reason :=
  if e ≠ endByte then some .endMismatch
  else if addrOk m slave = false then some .addressMismatch
  else if cksCheck slave cmd len data cand = false then some .checksumMismatch
  else none

/-- `FRAME` (R79), on the bytes after a start byte: none is `Pending`. -/
def frame (m : AddrMode) : List Byte → Option (FrameOut × List Byte)
  | s :: c :: l :: ys =>
    match ys.drop l.toNat with
    | h :: k :: e :: rest =>
      let d := ys.take l.toNat
      match verdict m s c l d (join h k) e with
      | some r => some (.disc r, rest)
      | none => some (.pkt ⟨s, c, l, d⟩, rest)
    | _ => none
  | _ => none

/-- `DECODE` (R79) with a bound on its recursion; every call consumes a byte, so the length is bound enough. -/
def decodeBounded (m : AddrMode) : Nat → List Byte → List FrameOut × EndState
  | 0, _ => ([], .seekStart)
  | _ + 1, [] => ([], .seekStart)
  | n + 1, b :: xs =>
    if b ≠ startByte then decodeBounded m n xs
    else
      match frame m xs with
      | none => ([], .pending)
      | some (o, rest) => (o :: (decodeBounded m n rest).1, (decodeBounded m n rest).2)

/-- `DECODE` (R79): the outcomes of a finite byte list and the state it leaves the decoder in. -/
def decodeStream (m : AddrMode) (xs : List Byte) : List FrameOut × EndState :=
  decodeBounded m xs.length xs

end Sys2Proof.Machine
end

