-- ==== Sys2Proof/Syntax.lean ====
section
/-! DEFINITION. The operations of the block, one constructor per row of spec/opcode_table.json, in its order
(spec/30_encoding.md R49, R50). A byte row that admits one byte value only (RX.SOF, RX.EOF) carries no operand. -/

namespace Sys2Proof

/-- One operation with its operands. -/
inductive Instr where
  | rxSof
  | rxSkip (b : Byte)
  | rxSlave (b : Byte)
  | rxCmd (b : Byte)
  | rxLen (b : Byte)
  | rxData (b : Byte)
  | rxCksh (b : Byte)
  | rxCksl (b : Byte)
  | rxEof
  | rxEofBad (e : Byte)
  | rxAccept
  | txEnc (slave cmd : Byte) (data : List Byte)
  | txByte
  | cks (slave cmd len : Byte) (data : List Byte)
  | cksCheck (slave cmd len : Byte) (data : List Byte) (cand : Word)
  | reset
  deriving DecidableEq, Repr

end Sys2Proof
end

