-- ==== Sys2Proof/WellFormed.lean ====
section
/-! DEFINITION. Which operands an operation may have (spec/30_encoding.md R49, R50). -/

namespace Sys2Proof

open Sys2Proof.Machine

/-- The operand conditions of R49 (RX.SOF and RX.EOF have priority over RX.SKIP and RX.EOF_BAD), R50 and R62
(at most 255 payload bytes) and R52 (exactly `len` bytes of data). -/
def Instr.wellFormed : Instr → Bool
  | .rxSof => true
  | .rxSkip b => b != startByte
  | .rxSlave _ => true
  | .rxCmd _ => true
  | .rxLen _ => true
  | .rxData _ => true
  | .rxCksh _ => true
  | .rxCksl _ => true
  | .rxEof => true
  | .rxEofBad e => e != endByte
  | .rxAccept => true
  | .txEnc _ _ data => decide (data.length ≤ maxLen)
  | .txByte => true
  | .cks _ _ len data => decide (data.length = len.toNat)
  | .cksCheck _ _ len data _ => decide (data.length = len.toNat)
  | .reset => true

end Sys2Proof
end

