-- ==== Sys2Proof/Decode.lean ====
section
/-! DEFINITION. Which operation what stands at a port selects (spec/30_encoding.md R49 for the input byte stream,
R50 for the other ports), the encoder back, and the host's table words. -/

namespace Sys2Proof

open Sys2Proof.Machine

/-- What selects an operation: a byte at the head of the input stream together with `rx_state` (R49), or a
port with its operands (R50: no binary encoding, "selected by the port it arrives on"). -/
inductive Selector where
  | byte (st : RxState) (b : Byte)
  | packetAccept
  | encodeRequest (slave cmd : Byte) (data : List Byte)
  | sinkReady
  | checksumPort (slave cmd len : Byte) (data : List Byte)
  | checkPort (slave cmd len : Byte) (data : List Byte) (cand : Word)
  | resetPort
  deriving DecidableEq, Repr

/-- Why nothing is selected. -/
inductive Reject where
  /-- In EMIT no byte is consumed (R17, R49). -/
  | emitTakesNoByte
  /-- A request of more than 255 bytes has no frame (R62). -/
  | payloadTooLong
  /-- The data of a checksum call is not exactly `len` bytes (R52's precondition). -/
  | lengthMismatch
  deriving DecidableEq, Repr

/-- The byte map of R49: `rx_state` and the head byte select the decoder's step. -/
def decodeByte : RxState → Byte → Except Reject Instr
  | .seekStart, b => if b = startByte then .ok .rxSof else .ok (.rxSkip b)
  | .hdrSlave, b => .ok (.rxSlave b)
  | .hdrCmd, b => .ok (.rxCmd b)
  | .hdrLen, b => .ok (.rxLen b)
  | .payload, b => .ok (.rxData b)
  | .cksHi, b => .ok (.rxCksh b)
  | .cksLo, b => .ok (.rxCksl b)
  | .validate, b => if b = endByte then .ok .rxEof else .ok (.rxEofBad b)
  | .emit, _ => .error .emitTakesNoByte

/-- The operation a selector selects, or why there is none (R49, R50). -/
def decode : Selector → Except Reject Instr
  | .byte st b => decodeByte st b
  | .packetAccept => .ok .rxAccept
  | .encodeRequest slave cmd data =>
    if data.length ≤ maxLen then .ok (.txEnc slave cmd data) else .error .payloadTooLong
  | .sinkReady => .ok .txByte
  | .checksumPort slave cmd len data =>
    if data.length = len.toNat then .ok (.cks slave cmd len data) else .error .lengthMismatch
  | .checkPort slave cmd len data cand =>
    if data.length = len.toNat then .ok (.cksCheck slave cmd len data cand) else .error .lengthMismatch
  | .resetPort => .ok .reset

/-- The selector of an operation, from the same tables (R49, R50). -/
def encode : Instr → Selector
  | .rxSof => .byte .seekStart startByte
  | .rxSkip b => .byte .seekStart b
  | .rxSlave b => .byte .hdrSlave b
  | .rxCmd b => .byte .hdrCmd b
  | .rxLen b => .byte .hdrLen b
  | .rxData b => .byte .payload b
  | .rxCksh b => .byte .cksHi b
  | .rxCksl b => .byte .cksLo b
  | .rxEof => .byte .validate endByte
  | .rxEofBad e => .byte .validate e
  | .rxAccept => .packetAccept
  | .txEnc slave cmd data => .encodeRequest slave cmd data
  | .txByte => .sinkReady
  | .cks slave cmd len data => .checksumPort slave cmd len data
  | .cksCheck slave cmd len data cand => .checkPort slave cmd len data cand
  | .reset => .resetPort

/-- The `rx_state` a table byte is read in. The table's rows give a byte but not the state that goes with it, so
the byte picks it: 0x0D is matched by RX.EOF's row, in VALIDATE, every other byte by RX.SOF's or RX.SKIP's, in
SEEK_START. DESIGN CHOICE, log 12. -/
def tableState (b : Byte) : RxState :=
  if b = endByte then .validate else .seekStart

/-- The selector a table word stands for: the byte rows are 8 bits wide, the port rows have no bits at all (R50).
DESIGN CHOICE, log 12. -/
def tableSelector (nbits w : Nat) : Option Selector :=
  if nbits = 8 ∧ w < 256 then some (.byte (tableState (BitVec.ofNat 8 w)) (BitVec.ofNat 8 w)) else none

/-- The host's reading of a table word: what `decode` gives for its selector. -/
def decodeTableWord (nbits w : Nat) : Option Instr :=
  match tableSelector nbits w with
  | some sel => (decode sel).toOption
  | none => none

end Sys2Proof
end

