-- ==== Sys2Proof/Machine/State.lean ====
section
/-! DEFINITION. The state of the block as plain data (spec/10_state.md R12), with its event history (R28), the
interface state of its environment (spec/60_exceptions.md R93) and the model's own bookkeeping; the reasons a step
can stop; and the state right after reset (spec/70_reset_and_hazards.md R96). -/

namespace Sys2Proof.Machine

/-- What stops the machine. Both stand for pseudocode that has no meaning in a state outside the ranges of R20 and
R26; no state with the invariant of Sys2Proof/Safety.lean raises either. Log 11. -/
inductive Fault where
  /-- RX.DATA with `rx_idx` at 255 or above: `Stage` has no such cell (R19, R72). Safe: the model stops where the
  block, whose `rx_idx` stays below `rx_len` there, cannot be. -/
  | stageIndex
  /-- TX.BYTE with `tx_pos` at `7 + tx_len` or above: FrameByte gives no byte (R63). Safe, as above. -/
  | framePosition
  deriving DecidableEq, Repr

/-- Inputs the model rejects, taking no step. -/
inductive Refusal where
  /-- Raised by an arm of `exec` with no meaning yet. Safe. No arm of this model uses it. -/
  | notModelled (mnemonic : String)
  /-- Raised by TX.ENC, and by presenting such a request, when the data is over 255 bytes (R62: "A model refuses
  it: it has no step and records a refusal, never a truncated frame"). Safe. Log 8. -/
  | payloadTooLong
  /-- Raised by CKS and CKS.CHECK when the data is not exactly `len` bytes (R52: "A model may refuse a call that
  breaks it"). Safe. Log 9. -/
  | lengthMismatch
  deriving DecidableEq, Repr

/-- The block's own state (R12 (b), (c)) with its interfaces and the model's bookkeeping: all that a step can change.
The configuration `ADDR_MODE` is not in it: the step relation `stepAt` of Sys2Proof/Machine/Step.lean takes that as a
fixed argument (spec/00_scope.md R6, spec/92_eei_decisions.md D14). -/
structure Block where
  /-- `rx_state` (R16). -/
  rxState    : RxState
  /-- `rx_slave` (R18). -/
  rxSlave    : Byte
  /-- `rx_cmd` (R18). -/
  rxCmd      : Byte
  /-- `rx_len` (R18). -/
  rxLen      : Byte
  /-- `Stage[0..254]` (R19). Log 19. -/
  stage      : Memory
  /-- `rx_idx` (R20), 0..255. -/
  rxIdx      : Nat
  /-- `rx_cks` (R21). -/
  rxCks      : Word
  /-- `tx_state` (R24). -/
  txState    : TxState
  /-- `tx_slave` (R25). -/
  txSlave    : Byte
  /-- `tx_cmd` (R25). -/
  txCmd      : Byte
  /-- `tx_len` (R25). -/
  txLen      : Byte
  /-- `tx_cks` (R25). -/
  txCks      : Word
  /-- `TxData[0..254]` (R25). Log 19. -/
  txData     : Memory
  /-- `tx_pos` (R26), 0..262. -/
  txPos      : Nat
  /-- The event history, oldest first (R28). -/
  hist       : List Event
  /-- The input byte stream, head first (R34, R67). -/
  rxIn       : List Byte
  /-- The encode requests that are presented (R60, R61). -/
  requests   : List Request
  /-- The byte sink's ready signal (R63, R64). -/
  sinkReady  : Bool
  /-- The packet sink's accept signal (R77). -/
  pktReady   : Bool
  /-- The environment's moves still to come. The model's own field, log 6. -/
  env        : List EnvMove
  /-- Whose turns come next. The model's own field, log 5. -/
  turns      : List Turn
  /-- What the checksum ports have answered, oldest first. The model's own field, log 10. -/
  cksOut     : List CksResult
  /-- How many RESET operations have drawn free values. The model's own field, log 3. -/
  draws      : Nat
  deriving DecidableEq, Repr

/-- A block with the mode it was constructed with: what the host's interface calls the state of the machine (R12; its
step takes a state and nothing else). Log 1. -/
structure State extends Block where
  /-- `ADDR_MODE` (R12 (a), R14): the step relation's fixed argument (R6), set at construction. -/
  addrMode : AddrMode
  deriving DecidableEq, Repr

/-- What a step of the step relation answers. -/
abbrev BlockOutcome := Host.Outcome Block Fault Refusal

/-- What a step at mode `m` answers, with the mode it was taken at written beside the block. -/
def withMode (m : AddrMode) : BlockOutcome → Host.Outcome State Fault Refusal
  | .next b => .next { toBlock := b, addrMode := m }
  | .fault f => .fault f
  | .refused r => .refused r

/-- A step `f` of the step relation, taken at the mode the machine was constructed with (R6, R98). -/
def State.atMode (f : AddrMode → Block → BlockOutcome) (s : State) : Host.Outcome State Fault Refusal :=
  withMode s.addrMode (f s.addrMode s.toBlock)

/-- The block right after RESET (R96: "The reset state is the same for every `ADDR_MODE`"), with both streams empty, no
request presented and both sinks at R51's default. The registers and cells R96 leaves unspecified are 0 here: DESIGN
CHOICE, log 2. The history holds the one event R96 records: log 14. -/
def Block.initial : Block where
  rxState   := .seekStart
  rxSlave   := 0
  rxCmd     := 0
  rxLen     := 0
  stage     := []
  rxIdx     := 0
  rxCks     := 0
  txState   := .idle
  txSlave   := 0
  txCmd     := 0
  txLen     := 0
  txCks     := 0
  txData    := []
  txPos     := 0
  hist      := [.reset]
  rxIn      := []
  requests  := []
  sinkReady := true
  pktReady  := true
  env       := []
  turns     := []
  cksOut    := []
  draws     := 0

/-- The machine constructed with mode `m` and reset (R98). -/
def State.construct (m : AddrMode) : State := { toBlock := Block.initial, addrMode := m }

/-- The machine right after reset, at whatever mode it was constructed with (R96: "unchanged: fixed at
construction"; log 1). -/
def State.reset : State := State.construct Config.addrMode

end Sys2Proof.Machine
end

