-- ==== Sys2Proof/Machine/Ops.lean ====
section
/-! DEFINITION. The named operations the meanings are built from (the primitives of spec/00_scope.md R9): byte
buffers, the input and output streams, the packet hand-off, taking a discard, and a unit that does not move. -/

namespace Sys2Proof.Machine

/-- What an unlisted cell of a buffer reads as. DESIGN CHOICE (R19, R25: unspecified at reset), log 2 and log 19. -/
def unlisted : Byte := 0

/-- `MemRead(m, i, 1)` (R9): the byte in cell `i`. -/
def Memory.read : Memory → Nat → Byte
  | [], _ => unlisted
  | (a, c) :: rest, i => if a = i then c else Memory.read rest i

/-- `MemWrite(m, i, 1, b)` (R9), keeping the canonical form. -/
def Memory.write : Memory → Nat → Byte → Memory
  | [], i, b => if b = unlisted then [] else [(i, b)]
  | (a, c) :: rest, i, b =>
    if i < a then (if b = unlisted then (a, c) :: rest else (i, b) :: (a, c) :: rest)
    else if i = a then (if b = unlisted then rest else (i, b) :: rest)
    else (a, c) :: Memory.write rest i b

/-- `for i in 0 .. len(data)-1: m[k + i] <- data[i]` (R60); the other cells keep their values. -/
def Memory.load (m : Memory) (k : Nat) : List Byte → Memory
  | [] => m
  | b :: bs => Memory.load (Memory.write m k b) (k + 1) bs

/-- `[m[0], ..., m[n-1]]` (R23). -/
def Memory.slice (m : Memory) (n : Nat) : List Byte := (List.range n).map (Memory.read m)

/-- A whole buffer from the value of each of its cells `0..254`, in canonical form. -/
def Memory.ofCells (f : Nat → Byte) : Memory :=
  (List.range maxLen).filterMap fun i => if f i = unlisted then none else some (i, f i)

/-- The indexes of a list of cells rise strictly. -/
def Memory.rising : Memory → Bool
  | [] => true
  | [_] => true
  | (a, _) :: (b, c) :: rest => decide (a < b) && Memory.rising ((b, c) :: rest)

/-- The canonical form of a buffer: indexes strictly rising, each of `0..254` (R19, R25), no entry that reads as an
unlisted cell does. -/
def Memory.wf (m : Memory) : Bool :=
  Memory.rising m && m.all fun e => decide (e.1 < maxLen) && e.2 != unlisted

/-- A unit whose guard is false does not move (R10, R64, R91). Log 4. -/
def noStep (s : Block) : BlockOutcome := .next s

/-- Record an event (R28). -/
def Block.record (s : Block) (e : Event) : Block := { s with hist := s.hist ++ [e] }

/-- `b <- RxTake()` (R9, R34): the head byte leaves the input stream for good. -/
def Block.rxTake (s : Block) (b : Byte) : Block :=
  { s with rxIn := s.rxIn.tail }.record (.rxTake b)

/-- The shape of the byte steps (R49, R67): with `rx_state = st` and `b` at the head of the input stream, take `b`
and go on with `k`; otherwise this step does not happen. -/
def onByte (st : RxState) (b : Byte) (k : Block → BlockOutcome) (s : Block) :
    BlockOutcome :=
  if s.rxState = st ∧ s.rxIn.head? = some b then k (s.rxTake b) else noStep s

/-- `TxPut(b)` (R9, R35). -/
def Block.txPut (s : Block) (b : Byte) : Block := s.record (.txOut b)

/-- `Emit(pkt)` (R9, R36). -/
def Block.emit (s : Block) (p : Packet) : Block := s.record (.pktOut p)

/-- `raise Discard(reason)` and the return to SEEK_START (R85): the block's only exception. It saves nothing, writes
no other register and hands off nothing. R86: the next SEEK_START step is the return from it. -/
def Block.discard (s : Block) (r : Reason) : Block :=
  { s.record (.discard r) with rxState := .seekStart }

end Sys2Proof.Machine
end

