-- ==== Sys2Proof/Machine/Checksum.lean ====
section
/-! DEFINITION. The combinational checksum ports (spec/40_checksum.md R52-R53). They write no state of the block;
what a port answers is appended to the model's own `cksOut` (log 10). -/

namespace Sys2Proof.Machine

/-- CKS (R52). A call whose data is not exactly `len` bytes is refused, as R52 allows (log 9). -/
def Block.execCks (slave cmd len : Byte) (data : List Byte) (s : Block) : BlockOutcome :=
  if data.length = len.toNat then
    .next { s with cksOut := s.cksOut ++ [.sum (cks slave cmd len data)] }
  else .refused .lengthMismatch

/-- CKS on the machine, at its mode. -/
def execCks (slave cmd len : Byte) (data : List Byte) (s : State) : Host.Outcome State Fault Refusal :=
  s.atMode fun _ => Block.execCks slave cmd len data

/-- CKS.CHECK (R53). -/
def Block.execCksCheck (slave cmd len : Byte) (data : List Byte) (cand : Word) (s : Block) :
    BlockOutcome :=
  if data.length = len.toNat then
    .next { s with cksOut := s.cksOut ++ [.verdict (cksCheck slave cmd len data cand)] }
  else .refused .lengthMismatch

/-- CKS.CHECK on the machine, at its mode. -/
def execCksCheck (slave cmd len : Byte) (data : List Byte) (cand : Word) (s : State) : Host.Outcome State Fault Refusal :=
  s.atMode fun _ => Block.execCksCheck slave cmd len data cand

end Sys2Proof.Machine
end

