-- ==== Sys2Proof/Machine/Operands.lean ====
section
/-! DEFINITION. What the operations read: the candidate frame (spec/10_state.md R18-R23), the request latch (R25)
and the bytes of the frame in transmission (spec/41_encoder.md R63), the read-back of the board address (R15). -/

namespace Sys2Proof.Machine

/-- `[Stage[0], ..., Stage[rx_len-1]]` (R23, R75). -/
def Block.rxPayload (s : Block) : List Byte := Memory.slice s.stage s.rxLen.toNat

/-- The packet of the candidate frame (R23, R77). -/
def Block.candidate (s : Block) : Packet := ⟨s.rxSlave, s.rxCmd, s.rxLen, s.rxPayload⟩

/-- The checks of VALIDATE at mode `m` on the candidate frame and the end byte `e` (R75). -/
def Block.verdict (m : AddrMode) (s : Block) (e : Byte) : Option Reason :=
  Sys2Proof.Machine.verdict m s.rxSlave s.rxCmd s.rxLen s.rxPayload s.rxCks e

/-- `rx_cks[15:8] <- b` (R73). -/
def setHi (v : Word) (b : Byte) : Word := join b (lo v)

/-- `rx_cks[7:0] <- b` (R74). -/
def setLo (v : Word) (b : Byte) : Word := join (hi v) b

/-- `[TxData[0], ..., TxData[tx_len-1]]` (R25). -/
def Block.txPayload (s : Block) : List Byte := Memory.slice s.txData s.txLen.toNat

/-- `FrameByte(p)` (R63); none where the rule gives no byte. -/
def Block.frameByte (s : Block) (p : Nat) : Option Byte :=
  let n := s.txLen.toNat
  if p = 0 then some startByte
  else if p = 1 then some s.txSlave
  else if p = 2 then some s.txCmd
  else if p = 3 then some s.txLen
  else if p < 4 + n then some (Memory.read s.txData (p - 4))
  else if p = 4 + n then some (hi s.txCks)
  else if p = 5 + n then some (lo s.txCks)
  else if p = 6 + n then some endByte
  else none

/-- The board address read back as a byte, the source's `get_board_address()` (R15). -/
def boardAddress : AddrMode → Byte
  | .addressed a => a
  | .promiscuous => Config.stateScreenValue

/-- The mode a board address number stands for under the sentinel reading of R15, in which no
`Addressed(STATE_SCREEN_VALUE)` node exists. Log 18. -/
def modeOfAddress (a : Byte) : AddrMode :=
  if a = Config.stateScreenValue then .promiscuous else .addressed a

/-- Under the sentinel reading a model refuses `Addressed(STATE_SCREEN_VALUE)` (R15): the modes that reading
has. -/
def sentinelLegal : AddrMode → Prop
  | .addressed a => a ≠ Config.stateScreenValue
  | .promiscuous => True

end Sys2Proof.Machine
end

