-- ==== Sys2Proof/Machine/Receive.lean ====
section
/-! DEFINITION. The decoder's operations (spec/42_decoder.md R68-R77). -/

namespace Sys2Proof.Machine

/-- RX.SOF (R68). -/
def Block.execRxSof (s : Block) : BlockOutcome :=
  onByte .seekStart startByte (fun s => .next { s with rxState := .hdrSlave }) s

/-- RX.SOF on the machine, at its mode. -/
def execRxSof (s : State) : Host.Outcome State Fault Refusal :=
  s.atMode fun _ => Block.execRxSof

/-- RX.SKIP (R68): any byte but the start byte is dropped. -/
def Block.execRxSkip (b : Byte) (s : Block) : BlockOutcome :=
  if b = startByte then noStep s
  else onByte .seekStart b (fun s => .next { s with rxState := .seekStart }) s

/-- RX.SKIP on the machine, at its mode. -/
def execRxSkip (b : Byte) (s : State) : Host.Outcome State Fault Refusal :=
  s.atMode fun _ => Block.execRxSkip b

/-- RX.SLAVE (R69). -/
def Block.execRxSlave (b : Byte) (s : Block) : BlockOutcome :=
  onByte .hdrSlave b (fun s => .next { s with rxSlave := b, rxState := .hdrCmd }) s

/-- RX.SLAVE on the machine, at its mode. -/
def execRxSlave (b : Byte) (s : State) : Host.Outcome State Fault Refusal :=
  s.atMode fun _ => Block.execRxSlave b

/-- RX.CMD (R70). -/
def Block.execRxCmd (b : Byte) (s : Block) : BlockOutcome :=
  onByte .hdrCmd b (fun s => .next { s with rxCmd := b, rxState := .hdrLen }) s

/-- RX.CMD on the machine, at its mode. -/
def execRxCmd (b : Byte) (s : State) : Host.Outcome State Fault Refusal :=
  s.atMode fun _ => Block.execRxCmd b

/-- RX.LEN (R71). -/
def Block.execRxLen (b : Byte) (s : Block) : BlockOutcome :=
  onByte .hdrLen b
    (fun s => .next { s with rxLen := b, rxIdx := 0, rxState := if b = 0 then .cksHi else .payload }) s

/-- RX.LEN on the machine, at its mode. -/
def execRxLen (b : Byte) (s : State) : Host.Outcome State Fault Refusal :=
  s.atMode fun _ => Block.execRxLen b

/-- RX.DATA (R72). Where `Stage` has no cell `rx_idx` the rule gives nothing: log 11. -/
def Block.execRxData (b : Byte) (s : Block) : BlockOutcome :=
  onByte .payload b
    (fun s =>
      if s.rxIdx < maxLen then
        .next { s with
          stage := Memory.write s.stage s.rxIdx b
          rxIdx := s.rxIdx + 1
          rxState := if s.rxIdx + 1 = s.rxLen.toNat then .cksHi else .payload }
      else .fault .stageIndex) s

/-- RX.DATA on the machine, at its mode. -/
def execRxData (b : Byte) (s : State) : Host.Outcome State Fault Refusal :=
  s.atMode fun _ => Block.execRxData b

/-- RX.CKSH (R73). -/
def Block.execRxCksh (b : Byte) (s : Block) : BlockOutcome :=
  onByte .cksHi b (fun s => .next { s with rxCks := setHi s.rxCks b, rxState := .cksLo }) s

/-- RX.CKSH on the machine, at its mode. -/
def execRxCksh (b : Byte) (s : State) : Host.Outcome State Fault Refusal :=
  s.atMode fun _ => Block.execRxCksh b

/-- RX.CKSL (R74). -/
def Block.execRxCksl (b : Byte) (s : Block) : BlockOutcome :=
  onByte .cksLo b (fun s => .next { s with rxCks := setLo s.rxCks b, rxState := .validate }) s

/-- RX.CKSL on the machine, at its mode. -/
def execRxCksl (b : Byte) (s : State) : Host.Outcome State Fault Refusal :=
  s.atMode fun _ => Block.execRxCksl b

/-- The end of VALIDATE at mode `m`, once the end byte `e` is taken (R75): present the packet, or discard the frame. -/
def Block.judged (m : AddrMode) (s : Block) (e : Byte) : Block :=
  match s.verdict m e with
  | none => { s with rxState := .emit }
  | some r => s.discard r

/-- RX.EOF (R75): the end byte is right; the address and checksum checks decide. -/
def Block.execRxEof (m : AddrMode) (s : Block) : BlockOutcome :=
  onByte .validate endByte (fun s => .next (s.judged m endByte)) s

/-- RX.EOF on the machine, at its mode. -/
def execRxEof (s : State) : Host.Outcome State Fault Refusal :=
  s.atMode Block.execRxEof

/-- RX.EOF_BAD (R75): any byte but the end byte is taken too, and the frame is discarded. -/
def Block.execRxEofBad (e : Byte) (s : Block) : BlockOutcome :=
  if e = endByte then noStep s
  else onByte .validate e (fun s => .next (s.discard .endMismatch)) s

/-- RX.EOF_BAD on the machine, at its mode. -/
def execRxEofBad (e : Byte) (s : State) : Host.Outcome State Fault Refusal :=
  s.atMode fun _ => Block.execRxEofBad e

/-- RX.ACCEPT (R77): no byte is taken; the packet sink takes the whole packet. -/
def Block.execRxAccept (s : Block) : BlockOutcome :=
  if s.rxState = .emit ∧ s.pktReady = true then
    .next { s.emit s.candidate with rxState := .seekStart }
  else noStep s

/-- RX.ACCEPT on the machine, at its mode. -/
def execRxAccept (s : State) : Host.Outcome State Fault Refusal :=
  s.atMode fun _ => Block.execRxAccept

end Sys2Proof.Machine
end

