-- ==== Sys2Proof/Machine/System.lean ====
section
/-! DEFINITION. RESET (spec/70_reset_and_hazards.md R96-R97). -/

namespace Sys2Proof.Machine

/-- RESET (R96): both control states, and a free value in every register and cell the rule leaves unspecified
(log 3). The configuration, the input stream and the presented requests stay. A frame in progress is abandoned
with no event but `Reset` (R97). -/
def Block.execReset (s : Block) : BlockOutcome :=
  .next ({ s with
    rxState := .seekStart
    txState := .idle
    rxSlave := Config.freeByte s.draws .rxSlave
    rxCmd := Config.freeByte s.draws .rxCmd
    rxLen := Config.freeByte s.draws .rxLen
    rxIdx := (Config.freeIndex s.draws).val
    rxCks := Config.freeWord s.draws .rxCks
    stage := Memory.ofCells fun i => Config.freeByte s.draws (.stage i)
    txSlave := Config.freeByte s.draws .txSlave
    txCmd := Config.freeByte s.draws .txCmd
    txLen := Config.freeByte s.draws .txLen
    txCks := Config.freeWord s.draws .txCks
    txPos := (Config.freeOffset s.draws).val
    txData := Memory.ofCells fun i => Config.freeByte s.draws (.txData i)
    draws := s.draws + 1 }.record .reset)

/-- RESET on the machine, at its mode. -/
def execReset (s : State) : Host.Outcome State Fault Refusal :=
  s.atMode fun _ => Block.execReset

end Sys2Proof.Machine
end

