-- ==== Sys2Proof/Machine/Transmit.lean ====
section
/-! DEFINITION. The encoder's operations (spec/41_encoder.md R60-R64). -/

namespace Sys2Proof.Machine

/-- TX.ENC (R60): latch a presented request, which is then no longer presented. Not accepted in SEND (R61); refused
when its data is over 255 bytes (R62). -/
def Block.execTxEnc (slave cmd : Byte) (data : List Byte) (s : Block) : BlockOutcome :=
  if maxLen < data.length then .refused .payloadTooLong
  else if s.txState = .idle ∧ (⟨slave, cmd, data⟩ : Request) ∈ s.requests then
    .next ({ s with
      txSlave := slave
      txCmd := cmd
      txLen := lenByte data
      txData := Memory.load s.txData 0 data
      txCks := cks slave cmd (lenByte data) data
      txPos := 0
      txState := .send
      requests := s.requests.erase ⟨slave, cmd, data⟩ }.record (.encAccept slave cmd data))
  else noStep s

/-- TX.ENC on the machine, at its mode. -/
def execTxEnc (slave cmd : Byte) (data : List Byte) (s : State) : Host.Outcome State Fault Refusal :=
  s.atMode fun _ => Block.execTxEnc slave cmd data

/-- TX.BYTE (R63, R64): hand the next frame byte to a ready sink. Where FrameByte gives no byte: log 11. -/
def Block.execTxByte (s : Block) : BlockOutcome :=
  if s.txState = .send ∧ s.sinkReady = true then
    match s.frameByte s.txPos with
    | some b =>
      .next { s.txPut b with
        txPos := s.txPos + 1
        txState := if s.txPos + 1 = 7 + s.txLen.toNat then .idle else .send }
    | none => .fault .framePosition
  else noStep s

/-- TX.BYTE on the machine, at its mode. -/
def execTxByte (s : State) : Host.Outcome State Fault Refusal :=
  s.atMode fun _ => Block.execTxByte

end Sys2Proof.Machine
end

