-- ==== Sys2Proof/Machine/Dispatch.lean ====
section
/-! DEFINITION. One arm per operation of spec/opcode_table.json. -/

namespace Sys2Proof.Machine

def exec (i : Instr) (s : State) : Host.Outcome State Fault Refusal :=
  match i with
  | .rxSof => Sys2Proof.Machine.execRxSof s
  | .rxSkip b => Sys2Proof.Machine.execRxSkip b s
  | .rxSlave b => Sys2Proof.Machine.execRxSlave b s
  | .rxCmd b => Sys2Proof.Machine.execRxCmd b s
  | .rxLen b => Sys2Proof.Machine.execRxLen b s
  | .rxData b => Sys2Proof.Machine.execRxData b s
  | .rxCksh b => Sys2Proof.Machine.execRxCksh b s
  | .rxCksl b => Sys2Proof.Machine.execRxCksl b s
  | .rxEof => Sys2Proof.Machine.execRxEof s
  | .rxEofBad e => Sys2Proof.Machine.execRxEofBad e s
  | .rxAccept => Sys2Proof.Machine.execRxAccept s
  | .txEnc slave cmd data => Sys2Proof.Machine.execTxEnc slave cmd data s
  | .txByte => Sys2Proof.Machine.execTxByte s
  | .cks slave cmd len data => Sys2Proof.Machine.execCks slave cmd len data s
  | .cksCheck slave cmd len data cand => Sys2Proof.Machine.execCksCheck slave cmd len data cand s
  | .reset => Sys2Proof.Machine.execReset s

end Sys2Proof.Machine
end

