-- ==== Sys2Proof/Machine/Select.lean ====
section
/-! DEFINITION. Which operation runs next (spec/30_encoding.md R49-R50, spec/60_exceptions.md R93): the operation
each agent has enabled, the environment's moves, and whose turn it is. -/

namespace Sys2Proof.Machine

/-- The decoder's enabled operation (R49, R67, R77), if it has one. -/
def decoderOp (s : Block) : Option Instr :=
  match s.rxState with
  | .emit => if s.pktReady then (decode .packetAccept).toOption else none
  | st =>
    match s.rxIn with
    | [] => none
    | b :: _ => (decode (.byte st b)).toOption

/-- The encoder's enabled operation (R60, R61, R63), if it has one. In IDLE it takes the presented request numbered
`pick`: any of them may be the one (R61, log 7). -/
def encoderOp (pick : Nat) (s : Block) : Option Instr :=
  match s.txState with
  | .idle => s.requests[pick]?.map fun r => .txEnc r.slave r.cmd r.data
  | .send => if s.sinkReady then (decode .sinkReady).toOption else none

/-- What a turn comes to. -/
inductive Turned where
  /-- The operation `i` runs, in state `s`. -/
  | run (i : Instr) (s : Block)
  /-- No operation runs: the environment has moved, or the agent has no step. -/
  | moved (s : Block)
  /-- The environment presented an input the model refuses. -/
  | rejected (r : Refusal)
  deriving Repr

/-- An agent's operation if it has one; otherwise it does not move. -/
def runOr (o : Option Instr) (s : Block) : Turned :=
  match o with
  | some i => .run i s
  | none => .moved s

/-- A selector brought by the environment to a port: the operation it selects, or the refusal. -/
def atPort (sel : Selector) (s : Block) : Turned :=
  match decode sel with
  | .ok i => .run i s
  | .error .payloadTooLong => .rejected .payloadTooLong
  | .error .lengthMismatch => .rejected .lengthMismatch
  | .error .emitTakesNoByte => .moved s

/-- One move of the environment (R51, R93). A request over 255 bytes is refused when it is presented (R62). -/
def envMove (m : EnvMove) (s : Block) : Turned :=
  match m with
  | .rx bytes => .moved { s with rxIn := s.rxIn ++ bytes }
  | .enc r =>
    if r.data.length ≤ maxLen then .moved { s with requests := s.requests ++ [r] }
    else .rejected .payloadTooLong
  | .sink ready => .moved { s with sinkReady := ready }
  | .pkt ready => .moved { s with pktReady := ready }
  | .reset => atPort .resetPort s
  | .cks slave cmd len data => atPort (.checksumPort slave cmd len data) s
  | .cksCheck slave cmd len data cand => atPort (.checkPort slave cmd len data cand) s

/-- The environment's turn: its next move, if it has one. -/
def envTurn (s : Block) : Turned :=
  match s.env with
  | [] => .moved s
  | m :: rest => envMove m { s with env := rest }

/-- A turn given to one agent. -/
def takeTurn (t : Turn) (s : Block) : Turned :=
  match t with
  | .decoder => runOr (decoderOp s) s
  | .encoder pick => runOr (encoderOp pick s) s
  | .environment => envTurn s

/-- The order once `turns` is used up (R51: "After each line the block takes enabled steps until none is enabled"):
the decoder if it has a step, else the encoder, else the environment's next move. DESIGN CHOICE, log 5. -/
def defaultTurn (s : Block) : Turn :=
  if (decoderOp s).isSome then .decoder
  else if (encoderOp 0 s).isSome then .encoder 0
  else .environment

/-- What happens next: the next listed turn, or the default one. -/
def nextTurn (s : Block) : Turned :=
  match s.turns with
  | t :: rest => takeTurn t { s with turns := rest }
  | [] => takeTurn (defaultTurn s) s

/-- What the host's table word needs to be the next operation: `rx_state` at the state its byte is read in, the byte
at the head of the input stream, and the decoder's turn. Log 12. -/
def placeSelector (s : Block) : Selector → Block
  | .byte st b => { s with rxState := st, rxIn := b :: s.rxIn, turns := .decoder :: s.turns }
  | _ => s

/-- The state a program of R51 starts in: constructed in the mode of its CFG line, with its other lines as the
environment's moves. Log 13. -/
def State.ofProgram (m : AddrMode) (lines : List EnvMove) : State :=
  { State.construct m with env := lines }

end Sys2Proof.Machine
end

