-- ==== Sys2Proof/Machine/Step.lean ====
section
/-! DEFINITION. One step of the machine, and the host's way to place an operation. -/

namespace Sys2Proof.Machine

/-- The operations at mode `m`: what each does to the block (R6: the mode is an argument). Only RX.EOF looks at the mode
(spec/10_state.md R14). -/
def execAt (m : AddrMode) (i : Instr) (s : Block) : BlockOutcome :=
  match i with
  | .rxSof => s.execRxSof
  | .rxSkip b => Block.execRxSkip b s
  | .rxSlave b => Block.execRxSlave b s
  | .rxCmd b => Block.execRxCmd b s
  | .rxLen b => Block.execRxLen b s
  | .rxData b => Block.execRxData b s
  | .rxCksh b => Block.execRxCksh b s
  | .rxCksl b => Block.execRxCksl b s
  | .rxEof => Block.execRxEof m s
  | .rxEofBad e => Block.execRxEofBad e s
  | .rxAccept => s.execRxAccept
  | .txEnc slave cmd data => Block.execTxEnc slave cmd data s
  | .txByte => s.execTxByte
  | .cks slave cmd len data => Block.execCks slave cmd len data s
  | .cksCheck slave cmd len data cand => Block.execCksCheck slave cmd len data cand s
  | .reset => s.execReset

/-- The step relation of spec/00_scope.md R6 and R10, with `ADDR_MODE` as its fixed argument and not in the state it steps:
whoever's turn it is takes its enabled step; with none enabled nothing moves. -/
def stepAt (m : AddrMode) (s : Block) : BlockOutcome :=
  match nextTurn s with
  | .run i s' => execAt m i s'
  | .moved s' => .next s'
  | .rejected r => .refused r

/-- One step of the machine the host's interface takes: the step relation at the machine's mode. -/
def step (s : State) : Host.Outcome State Fault Refusal := s.atMode stepAt

/-- `s` with the table word placed so that the very next step runs it; unchanged for a word that no row matches.
Log 12. -/
def State.withFetchWord (s : State) (nbits w : Nat) : State :=
  match tableSelector nbits w with
  | some sel => { s with toBlock := placeSelector s.toBlock sel }
  | none => s

end Sys2Proof.Machine
end

