-- ==== Sys2Proof/Machine/Flags.lean ====
section
/-! DEFINITION. The block has no flags (spec/10_state.md R27): its outputs are levels computed from the state. Also
the numeric codes the spec gives its names (R16, R24, spec/60_exceptions.md R83); no behaviour depends on them. -/

namespace Sys2Proof.Machine

/-- `pkt_valid` (R23, R27). -/
def Block.pktValid (s : Block) : Bool := s.rxState == .emit

/-- `rx_in_frame` (R27). -/
def Block.rxInFrame (s : Block) : Bool := s.rxState != .seekStart && s.rxState != .emit

/-- `tx_busy` (R24, R27). -/
def Block.txBusy (s : Block) : Bool := s.txState == .send

/-- The packet output: presented in EMIT and in no other state (R23). -/
def Block.presented (s : Block) : Option Packet := if s.rxState = .emit then some s.candidate else none

/-- The code of an `rx_state` (R16). -/
def RxState.code : RxState → Nat
  | .seekStart => 0
  | .hdrSlave => 1
  | .hdrCmd => 2
  | .hdrLen => 3
  | .payload => 4
  | .cksHi => 5
  | .cksLo => 6
  | .validate => 7
  | .emit => 8

/-- The code of a `tx_state` (R24). -/
def TxState.code : TxState → Nat
  | .idle => 0
  | .send => 1

/-- The code of a discard reason (R83; the spec's own choice, log 16). -/
def Reason.code : Reason → Nat
  | .endMismatch => 1
  | .addressMismatch => 2
  | .checksumMismatch => 3

end Sys2Proof.Machine
end

