-- ==== Sys2Proof/Safety.lean ====
section
/-! DEFINITION. What claims about the machine are stated in: when an operation is enabled, the invariant of the
reachable states, and what an observer reads off the event history. -/

namespace Sys2Proof.Machine

/-- The operations of the decoder (spec/60_exceptions.md R93). -/
def isDecoderOp : Instr → Bool
  | .rxSof | .rxSkip _ | .rxSlave _ | .rxCmd _ | .rxLen _ | .rxData _ | .rxCksh _ | .rxCksl _ => true
  | .rxEof | .rxEofBad _ | .rxAccept => true
  | .txEnc _ _ _ | .txByte | .cks _ _ _ _ | .cksCheck _ _ _ _ _ | .reset => false

/-- The operations of the encoder (R93). -/
def isEncoderOp : Instr → Bool
  | .txEnc _ _ _ | .txByte => true
  | .rxSof | .rxSkip _ | .rxSlave _ | .rxCmd _ | .rxLen _ | .rxData _ | .rxCksh _ | .rxCksl _ => false
  | .rxEof | .rxEofBad _ | .rxAccept | .cks _ _ _ _ | .cksCheck _ _ _ _ _ | .reset => false

/-- The guard of an operation (spec/30_encoding.md R49-R50, R60, R63, R77). -/
def enabled : Instr → State → Prop
  | .rxSof, s => s.rxState = .seekStart ∧ s.rxIn.head? = some startByte
  | .rxSkip b, s => s.rxState = .seekStart ∧ s.rxIn.head? = some b
  | .rxSlave b, s => s.rxState = .hdrSlave ∧ s.rxIn.head? = some b
  | .rxCmd b, s => s.rxState = .hdrCmd ∧ s.rxIn.head? = some b
  | .rxLen b, s => s.rxState = .hdrLen ∧ s.rxIn.head? = some b
  | .rxData b, s => s.rxState = .payload ∧ s.rxIn.head? = some b
  | .rxCksh b, s => s.rxState = .cksHi ∧ s.rxIn.head? = some b
  | .rxCksl b, s => s.rxState = .cksLo ∧ s.rxIn.head? = some b
  | .rxEof, s => s.rxState = .validate ∧ s.rxIn.head? = some endByte
  | .rxEofBad e, s => s.rxState = .validate ∧ s.rxIn.head? = some e
  | .rxAccept, s => s.rxState = .emit ∧ s.pktReady = true
  | .txEnc slave cmd data, s => s.txState = .idle ∧ (⟨slave, cmd, data⟩ : Request) ∈ s.requests
  | .txByte, s => s.txState = .send ∧ s.sinkReady = true
  | .cks _ _ _ _, _ => True
  | .cksCheck _ _ _ _ _, _ => True
  | .reset, _ => True

/-- The invariant: the ranges and relations of R20 and R26, canonical buffers (R19, R25), the latch that R25 says
holds the frame in transmission, legal requests only (R62), and in EMIT a candidate that passed VALIDATE (R75). -/
structure Inv (s : State) : Prop where
  stage_wf : Memory.wf s.stage = true
  txData_wf : Memory.wf s.txData = true
  rxIdx_range : s.rxIdx ≤ 255
  txPos_range : s.txPos ≤ 262
  payload_idx : s.rxState = .payload → s.rxIdx < s.rxLen.toNat
  full_idx : s.rxState = .cksHi ∨ s.rxState = .cksLo ∨ s.rxState = .validate ∨ s.rxState = .emit →
    s.rxIdx = s.rxLen.toNat
  emit_ok : s.rxState = .emit → s.verdict s.addrMode endByte = none
  send_pos : s.txState = .send → s.txPos < 7 + s.txLen.toNat
  send_cks : s.txState = .send → s.txCks = cks s.txSlave s.txCmd s.txLen s.txPayload
  requests_legal : ∀ r ∈ s.requests, r.data.length ≤ 255

/-- The events since the last reset. -/
def sinceReset (h : List Event) : List Event :=
  h.foldl (fun acc e => if e = .reset then [] else acc ++ [e]) []

/-- The input bytes consumed, in order. -/
def takenBytes (h : List Event) : List Byte :=
  h.filterMap fun e => match e with | .rxTake b => some b | _ => none

/-- The bytes handed to the byte sink, in order. -/
def wireBytes (h : List Event) : List Byte :=
  h.filterMap fun e => match e with | .txOut b => some b | _ => none

/-- What became of each candidate frame, in order. -/
def outcomes (h : List Event) : List FrameOut :=
  h.filterMap fun e => match e with | .pktOut p => some (.pkt p) | .discard r => some (.disc r) | _ => none

/-- The decoder's own events. -/
def decoderEvents (h : List Event) : List Event :=
  h.filter fun e => match e with | .rxTake _ | .discard _ | .pktOut _ => true | _ => false

/-- The encoder's own events. -/
def encoderEvents (h : List Event) : List Event :=
  h.filter fun e => match e with | .encAccept _ _ _ | .txOut _ => true | _ => false

/-- One event read by a listener on the wire that knows the accepted requests: it holds the bytes of the frame in
progress that are still to come, and none once an event breaks the rule of R61 and R65. -/
def wireStep (due : Option (List Byte)) (e : Event) : Option (List Byte) :=
  match due, e with
  | none, _ => none
  | some [], .encAccept slave cmd data => some (encodeFrame slave cmd data)
  | some (_ :: _), .encAccept _ _ _ => none
  | some (b :: rest), .txOut c => if b = c then some rest else none
  | some [], .txOut _ => none
  | some _, .reset => some []
  | some due, .rxTake _ => some due
  | some due, .discard _ => some due
  | some due, .pktOut _ => some due

/-- The bytes still due on the wire after a history: none if any frame was interleaved, altered, or cut short by
anything but a reset (R61, R65, R97). -/
def wireDue (h : List Event) : Option (List Byte) := h.foldl wireStep (some [])

/-- The frame in transmission as the latch holds it (R65). -/
def Block.txFrame (s : Block) : List Byte := encodeFrame s.txSlave s.txCmd s.txPayload

/-- The wire agrees with the encoder: what is due is exactly the rest of the latched frame. -/
def WireExact (s : State) : Prop :=
  wireDue s.hist = some (if s.txState = .send then s.txFrame.drop s.txPos else [])

/-- The bytes of the candidate frame consumed so far, by `rx_state` (R16). -/
def Block.candidateBytes (s : Block) : List Byte :=
  match s.rxState with
  | .seekStart => []
  | .hdrSlave => [startByte]
  | .hdrCmd => [startByte, s.rxSlave]
  | .hdrLen => [startByte, s.rxSlave, s.rxCmd]
  | .payload => [startByte, s.rxSlave, s.rxCmd, s.rxLen] ++ Memory.slice s.stage s.rxIdx
  | .cksHi => [startByte, s.rxSlave, s.rxCmd, s.rxLen] ++ s.rxPayload
  | .cksLo => [startByte, s.rxSlave, s.rxCmd, s.rxLen] ++ s.rxPayload ++ [hi s.rxCks]
  | .validate => [startByte, s.rxSlave, s.rxCmd, s.rxLen] ++ s.rxPayload ++ [hi s.rxCks, lo s.rxCks]
  | .emit => []

/-- The decoder agrees with DECODE (R79): the bytes taken since the last reset are some bytes that DECODE has
brought to the outcomes recorded (and the packet still presented), then the candidate frame's bytes. -/
def DecoderExact (s : State) : Prop :=
  ∃ done : List Byte,
    takenBytes (sinceReset s.hist) = done ++ s.candidateBytes ∧
    decodeStream s.addrMode done =
      (outcomes (sinceReset s.hist) ++ (s.presented.map FrameOut.pkt).toList, .seekStart)

/-- Every packet handed off so far was admitted by the address filter and has as many bytes as it says. -/
def OnlyAdmitted (s : State) : Prop :=
  ∀ p : Packet, Event.pktOut p ∈ s.hist → addrOk s.addrMode p.slave = true ∧ p.payload.length = p.len.toNat

/-- A byte list that is one frame by its own length byte (R82). -/
def wellDelimited (f : List Byte) : Prop :=
  f[0]? = some startByte ∧ ∃ n : Byte, f[3]? = some n ∧ f.length = 7 + n.toNat

/-- The step relation at mode `m` as a machine of its own: its states are blocks, and `m` is a fixed argument (R6, R98). -/
def coreAt (m : AddrMode) : Host.Core :=
  { State := Block, Fault := Fault, Refusal := Refusal, step := stepAt m, reset := Block.initial }

/-- A way to add up bytes with `+16`, with any grouping (spec/40_checksum.md R57). -/
inductive Grouping where
  | byte (b : Byte)
  | plus (l r : Grouping)
  deriving DecidableEq, Repr

/-- The addends, left to right. -/
def Grouping.bytes : Grouping → List Byte
  | .byte b => [b]
  | .plus l r => l.bytes ++ r.bytes

/-- What the additions come to: a byte is zero-extended, and `a +16 b` is addition modulo 65536 (R8). -/
def Grouping.value : Grouping → Word
  | .byte b => b.setWidth 16
  | .plus l r => l.value + r.value

/-- Two states that differ at most in registers and cells no rule reads before a step has written them (R18, R19,
R25, R96), and in the draw counter: they agree on the configuration, both control states, the candidate frame
consumed so far, the packet presented, the rest of the frame in transmission, and everything outside the block. -/
structure Alike (s t : State) : Prop where
  addrMode : s.addrMode = t.addrMode
  rxState : s.rxState = t.rxState
  candidate : s.candidateBytes = t.candidateBytes
  presented : s.presented = t.presented
  txState : s.txState = t.txState
  sending : s.txState = .send → s.txFrame = t.txFrame ∧ s.txPos = t.txPos
  hist : s.hist = t.hist
  rxIn : s.rxIn = t.rxIn
  requests : s.requests = t.requests
  sinkReady : s.sinkReady = t.sinkReady
  pktReady : s.pktReady = t.pktReady
  env : s.env = t.env
  turns : s.turns = t.turns
  cksOut : s.cksOut = t.cksOut

end Sys2Proof.Machine
end

