-- ==== Sys2Proof/Certificates/Slice0/Obligations.lean ====
section
/-! DEFINITION. The statements for the provers. Each docstring names the rules of spec/ it rests on; where a clause
is the model's own choice, it names the log entry. -/

open Sys2Proof Sys2Proof.Machine

/-! ### Selecting an operation -/

/-- R49, R50: the operations that some selectors written out from the byte map and the port list stand for. -/
def Obligations.SpecSelectorsDecode : Prop :=
  decode (.byte .seekStart 0x3A) = .ok .rxSof ∧ decode (.byte .seekStart 0x0D) = .ok (.rxSkip 0x0D) ∧
  decode (.byte .hdrSlave 0x3A) = .ok (.rxSlave 0x3A) ∧ decode (.byte .hdrLen 0x00) = .ok (.rxLen 0x00) ∧
  decode (.byte .payload 0x0D) = .ok (.rxData 0x0D) ∧ decode (.byte .validate 0x0D) = .ok .rxEof ∧
  decode (.byte .validate 0x3A) = .ok (.rxEofBad 0x3A) ∧ decode .packetAccept = .ok .rxAccept ∧
  decode (.encodeRequest 3 1 [0x2A]) = .ok (.txEnc 3 1 [0x2A])

/-- R49, R50: decoding the selector of any well-formed operation gives the operation back. -/
def Obligations.DecodeOfEncode : Prop :=
  ∀ i : Instr, i.wellFormed = true → decode (encode i) = .ok i

/-- R49, R50: whatever a selector decodes to is well formed, and its own selector is that one. -/
def Obligations.EncodeOfDecode : Prop :=
  ∀ (sel : Selector) (i : Instr), decode sel = .ok i → i.wellFormed = true ∧ encode i = sel

/-- R49: the byte map. In every state but EMIT every byte selects exactly one operation, the one of the map's row,
and in a state with the invariant that operation leaves `rx_state` where the row says. In EMIT no byte selects
anything, and the packet sink's accept leads to SEEK_START with no byte consumed. -/
def Obligations.ByteMapIsTotal : Prop :=
  (∀ b : Byte, decode (.byte .emit b) = .error .emitTakesNoByte) ∧
  (∀ s : State, s.rxState = .emit → s.pktReady = true →
    ∃ t : State, exec .rxAccept s = .next t ∧ t.rxState = .seekStart ∧ t.rxIn = s.rxIn) ∧
  ∀ (s : State) (b : Byte) (rest : List Byte), Inv s → s.rxState ≠ .emit → s.rxIn = b :: rest →
    ∃ (i : Instr) (t : State), decode (.byte s.rxState b) = .ok i ∧ exec i s = .next t ∧ t.rxIn = rest ∧
      (s.rxState = .seekStart → b = 0x3A → i = .rxSof ∧ t.rxState = .hdrSlave) ∧
      (s.rxState = .seekStart → b ≠ 0x3A → i = .rxSkip b ∧ t.rxState = .seekStart) ∧
      (s.rxState = .hdrSlave → i = .rxSlave b ∧ t.rxState = .hdrCmd) ∧
      (s.rxState = .hdrCmd → i = .rxCmd b ∧ t.rxState = .hdrLen) ∧
      (s.rxState = .hdrLen → i = .rxLen b ∧ t.rxState = if b = 0 then .cksHi else .payload) ∧
      (s.rxState = .payload → i = .rxData b ∧
        t.rxState = if s.rxIdx + 1 = s.rxLen.toNat then .cksHi else .payload) ∧
      (s.rxState = .cksHi → i = .rxCksh b ∧ t.rxState = .cksLo) ∧
      (s.rxState = .cksLo → i = .rxCksl b ∧ t.rxState = .validate) ∧
      (s.rxState = .validate → b = 0x0D → i = .rxEof ∧
        t.rxState = if addrOk s.addrMode s.rxSlave = true ∧
          cks s.rxSlave s.rxCmd s.rxLen (Memory.slice s.stage s.rxLen.toNat) = s.rxCks
          then .emit else .seekStart) ∧
      (s.rxState = .validate → b ≠ 0x0D → i = .rxEofBad b ∧ t.rxState = .seekStart)

/-! ### The decoder's operations -/

/-- R68: RX.SOF and RX.SKIP. The equation names everything the step writes; all else is unchanged. -/
def Obligations.SeekStartStep : Prop :=
  ∀ (s : State) (b : Byte) (rest : List Byte), s.rxState = .seekStart → s.rxIn = b :: rest →
    exec (if b = 0x3A then .rxSof else .rxSkip b) s =
      .next { s with
        rxIn := rest
        hist := s.hist ++ [.rxTake b]
        rxState := if b = 0x3A then .hdrSlave else .seekStart }

/-- R69, R70, R71: RX.SLAVE, RX.CMD and RX.LEN store the byte, of any value; a zero length goes straight to the
checksum. All else is unchanged. -/
def Obligations.HeaderSteps : Prop :=
  ∀ (s : State) (b : Byte) (rest : List Byte), s.rxIn = b :: rest →
    (s.rxState = .hdrSlave → exec (.rxSlave b) s =
      .next { s with rxIn := rest, hist := s.hist ++ [.rxTake b], rxSlave := b, rxState := .hdrCmd }) ∧
    (s.rxState = .hdrCmd → exec (.rxCmd b) s =
      .next { s with rxIn := rest, hist := s.hist ++ [.rxTake b], rxCmd := b, rxState := .hdrLen }) ∧
    (s.rxState = .hdrLen → exec (.rxLen b) s =
      .next { s with
        rxIn := rest
        hist := s.hist ++ [.rxTake b]
        rxLen := b
        rxIdx := 0
        rxState := if b = 0 then .cksHi else .payload })

/-- R72: RX.DATA stores the byte in `Stage[rx_idx]` and in no other cell, and counts it. All else is unchanged. -/
def Obligations.PayloadStep : Prop :=
  ∀ (s : State) (b : Byte) (rest : List Byte), Inv s → s.rxState = .payload → s.rxIn = b :: rest →
    ∃ m : Memory,
      exec (.rxData b) s = .next { s with
        rxIn := rest
        hist := s.hist ++ [.rxTake b]
        stage := m
        rxIdx := s.rxIdx + 1
        rxState := if s.rxIdx + 1 = s.rxLen.toNat then .cksHi else .payload } ∧
      ∀ j : Nat, Memory.read m j = if j = s.rxIdx then b else Memory.read s.stage j

/-- R73, R74: RX.CKSH writes bits 15:8 of `rx_cks` and keeps bits 7:0; RX.CKSL writes bits 7:0 and keeps bits 15:8.
All else is unchanged. That RX.CKSH keeps bits 7:0 is the model's reading (log 22): spec/93_implementation_defined.md
lets them be any value until RX.CKSL. CandidateChecksumAssembled says the same without that clause. -/
def Obligations.ChecksumByteSteps : Prop :=
  ∀ (s : State) (b : Byte) (rest : List Byte), s.rxIn = b :: rest →
    (s.rxState = .cksHi → ∃ v : Word,
      exec (.rxCksh b) s =
        .next { s with rxIn := rest, hist := s.hist ++ [.rxTake b], rxCks := v, rxState := .cksLo } ∧
      v.extractLsb' 8 8 = b ∧ v.extractLsb' 0 8 = s.rxCks.extractLsb' 0 8) ∧
    (s.rxState = .cksLo → ∃ v : Word,
      exec (.rxCksl b) s =
        .next { s with rxIn := rest, hist := s.hist ++ [.rxTake b], rxCks := v, rxState := .validate } ∧
      v.extractLsb' 0 8 = b ∧ v.extractLsb' 8 8 = s.rxCks.extractLsb' 8 8)

/-- R75, R84: VALIDATE takes the end byte whatever its value, and either presents the packet or discards the frame
with the first reason that holds; it writes nothing else (R85). -/
def Obligations.ValidateStep : Prop :=
  ∀ (s : State) (e : Byte) (rest : List Byte), s.rxState = .validate → s.rxIn = e :: rest →
    let addr := addrOk s.addrMode s.rxSlave = true
    let sum := cks s.rxSlave s.rxCmd s.rxLen (Memory.slice s.stage s.rxLen.toNat) = s.rxCks
    exec (if e = 0x0D then .rxEof else .rxEofBad e) s =
      .next { s with
        rxIn := rest
        rxState := if e = 0x0D ∧ addr ∧ sum then .emit else .seekStart
        hist := s.hist ++ [.rxTake e] ++
          (if e ≠ 0x0D then [.discard .endMismatch]
           else if ¬ addr then [.discard .addressMismatch]
           else if ¬ sum then [.discard .checksumMismatch]
           else []) }

/-- R76: the address filter, with every mode and every slave byte. -/
def Obligations.AddressFilter : Prop :=
  (∀ a slave : Byte, addrOk (.addressed a) slave = true ↔ slave = a) ∧
  (∀ slave : Byte, addrOk .promiscuous slave = true)

/-- R77: RX.ACCEPT hands the whole packet to an accepting sink, takes no byte, and returns to SEEK_START; while the
sink withholds acceptance the decoder has no step, and no byte at the head of the stream selects one. -/
def Obligations.AcceptStep : Prop :=
  ∀ s : State, s.rxState = .emit →
    (s.pktReady = true → exec .rxAccept s =
      .next { s with
        rxState := .seekStart
        hist := s.hist ++
          [.pktOut ⟨s.rxSlave, s.rxCmd, s.rxLen, (List.range s.rxLen.toNat).map (Memory.read s.stage)⟩] }) ∧
    (s.pktReady = false → decoderOp s.toBlock = none ∧
      ∀ b : Byte, decode (.byte s.rxState b) = .error .emitTakesNoByte)

/-- R23, R27: the level outputs and the packet output, computed from the control states. -/
def Obligations.LevelOutputs : Prop :=
  ∀ s : State,
    (s.pktValid = true ↔ s.rxState = .emit) ∧
    (s.rxInFrame = true ↔ s.rxState ≠ .seekStart ∧ s.rxState ≠ .emit) ∧
    (s.txBusy = true ↔ s.txState = .send) ∧
    (∀ p : Packet, s.presented = some p ↔ s.rxState = .emit ∧
      p = ⟨s.rxSlave, s.rxCmd, s.rxLen, (List.range s.rxLen.toNat).map (Memory.read s.stage)⟩)

/-! ### The encoder's operations -/

/-- R60: TX.ENC latches a presented request at once, in IDLE; cells at the data's length and above keep their
values, and the request is no longer presented. All else is unchanged. -/
def Obligations.EncodeAccept : Prop :=
  ∀ (s : State) (slave cmd : Byte) (data : List Byte), Inv s → s.txState = .idle →
    (⟨slave, cmd, data⟩ : Request) ∈ s.requests →
    ∃ (n : Byte) (m : Memory),
      exec (.txEnc slave cmd data) s = .next { s with
        txSlave := slave
        txCmd := cmd
        txLen := n
        txData := m
        txCks := cks slave cmd n data
        txPos := 0
        txState := .send
        requests := s.requests.erase ⟨slave, cmd, data⟩
        hist := s.hist ++ [.encAccept slave cmd data] } ∧
      n.toNat = data.length ∧
      ∀ j : Nat, Memory.read m j = (data[j]?).getD (Memory.read s.txData j)

/-- R61: in SEND no request is accepted: it stays presented and nothing moves (in the model's form, log 4); in IDLE
any presented request may be the one accepted next, each by its own turn (log 7). -/
def Obligations.RequestsWaitForIdle : Prop :=
  (∀ (s : State) (slave cmd : Byte) (data : List Byte), s.txState = .send → data.length ≤ 255 →
    exec (.txEnc slave cmd data) s = .next s) ∧
  ∀ (s : State) (r : Request) (ts : List Turn), Inv s → s.txState = .idle → r ∈ s.requests →
    ∃ (k : Nat) (t : State), step { s with turns := .encoder k :: ts } = .next t ∧
      t.hist = s.hist ++ [.encAccept r.slave r.cmd r.data] ∧ t.txState = .send ∧
      t.requests = s.requests.erase r ∧ t.turns = ts

/-- R62: a request of more than 255 bytes is refused, whatever the state, and so is presenting it. -/
def Obligations.LongRequestRefused : Prop :=
  ∀ (s : State) (slave cmd : Byte) (data : List Byte), 255 < data.length →
    exec (.txEnc slave cmd data) s = .refused .payloadTooLong ∧
    decode (.encodeRequest slave cmd data) = .error .payloadTooLong ∧
    ∀ (rest : List EnvMove) (ts : List Turn),
      step { s with env := .enc ⟨slave, cmd, data⟩ :: rest, turns := .environment :: ts } =
        .refused .payloadTooLong

/-- R63: TX.BYTE hands exactly the frame byte at `tx_pos` to a ready sink and returns to IDLE after the last one.
All else is unchanged. -/
def Obligations.TransmitByte : Prop :=
  ∀ s : State, s.txState = .send → s.sinkReady = true → s.txPos < 7 + s.txLen.toNat →
    ∃ b : Byte,
      exec .txByte s = .next { s with
        txPos := s.txPos + 1
        txState := if s.txPos + 1 = 7 + s.txLen.toNat then .idle else .send
        hist := s.hist ++ [.txOut b] } ∧
      (s.txPos = 0 → b = 0x3A) ∧ (s.txPos = 1 → b = s.txSlave) ∧ (s.txPos = 2 → b = s.txCmd) ∧
      (s.txPos = 3 → b = s.txLen) ∧
      (4 ≤ s.txPos → s.txPos < 4 + s.txLen.toNat → b = Memory.read s.txData (s.txPos - 4)) ∧
      (s.txPos = 4 + s.txLen.toNat → b = s.txCks.extractLsb' 8 8) ∧
      (s.txPos = 5 + s.txLen.toNat → b = s.txCks.extractLsb' 0 8) ∧
      (s.txPos = 6 + s.txLen.toNat → b = 0x0D)

/-- R64: while the byte sink is not ready the encoder has no step, whatever its turn, and does not move for as many
turns as it is given: it offers the same byte again, and never gives up. That a step not taken is a next state with
nothing changed is the model's form (log 4). -/
def Obligations.StalledSinkHoldsByte : Prop :=
  ∀ s : State, s.txState = .send → s.sinkReady = false →
    (∀ k : Nat, encoderOp k s.toBlock = none) ∧ exec .txByte s = .next s ∧
    ∀ (n k : Nat) (ts : List Turn),
      Host.Core.run core n { s with turns := List.replicate n (.encoder k) ++ ts } = .next { s with turns := ts }

/-- R59, R63, R65: in SEND the byte TX.BYTE emits at each offset is the byte ENCODE puts there. -/
def Obligations.FrameBytesAreEncode : Prop :=
  ∀ (s : State) (p : Nat), Inv s → s.txState = .send →
    s.frameByte p = (encodeFrame s.txSlave s.txCmd ((List.range s.txLen.toNat).map (Memory.read s.txData)))[p]?

/-- R66 (a): the encoder does not read `ADDR_MODE`. -/
def Obligations.EncoderIgnoresAddrMode : Prop :=
  ∀ (i : Instr) (s t : State) (m : AddrMode), isEncoderOp i = true → exec i s = .next t →
    exec i { s with addrMode := m } = .next { t with addrMode := m }

/-! ### The checksum ports and their laws -/

/-- R52, R53: the checksum function and its validator. -/
def Obligations.ChecksumFormula : Prop :=
  ∀ (slave cmd len : Byte) (data : List Byte) (cand : Word), data.length = len.toNat →
    (cks slave cmd len data).toNat =
      (0x3A + slave.toNat + cmd.toNat + len.toNat + 0x0D + (data.map BitVec.toNat).sum) % 65536 ∧
    (cksCheck slave cmd len data cand = true ↔ cks slave cmd len data = cand)

/-- R52, R53: both checksum ports take every call whose data is exactly `len` bytes and write no state of the block.
That the answers are kept in `cksOut` is the model's choice (log 10). -/
def Obligations.ChecksumPortsAnswer : Prop :=
  ∀ (s : State) (slave cmd len : Byte) (data : List Byte) (cand : Word), data.length = len.toNat →
    exec (.cks slave cmd len data) s =
      .next { s with cksOut := s.cksOut ++ [.sum (cks slave cmd len data)] } ∧
    exec (.cksCheck slave cmd len data cand) s =
      .next { s with cksOut := s.cksOut ++ [.verdict (cksCheck slave cmd len data cand)] }

/-- R52's precondition: a call of either port whose data is not exactly `len` bytes is refused. The spec allows the
refusal and does not ask for it: the model's choice (log 9). -/
def Obligations.WrongLengthRefused : Prop :=
  ∀ (s : State) (slave cmd len : Byte) (data : List Byte) (cand : Word), data.length ≠ len.toNat →
    exec (.cks slave cmd len data) s = .refused .lengthMismatch ∧
    exec (.cksCheck slave cmd len data cand) s = .refused .lengthMismatch

/-- R54: the exact sum lies in 71..65861, the reduction subtracts 65536 at most once, and only with at least 254
payload bytes; with 253 the largest sum is 65349. The ends are reached, by the operands the rule names, and the
rule's three results at the wrap are as it says. -/
def Obligations.ChecksumRange : Prop :=
  exactSum 0 0 0 [] = 71 ∧ exactSum 0xFF 0xFF 0xFF (List.replicate 255 0xFF) = 65861 ∧
  exactSum 0xFF 0xFF 0xFD (List.replicate 253 0xFF) = 65349 ∧
  ∀ (slave cmd len : Byte) (data : List Byte), data.length = len.toNat →
    let S := 0x3A + slave.toNat + cmd.toNat + len.toNat + 0x0D + (data.map BitVec.toNat).sum
    exactSum slave cmd len data = S ∧ 71 ≤ S ∧ S ≤ 65861 ∧
    ((cks slave cmd len data).toNat = S ∨ (cks slave cmd len data).toNat + 65536 = S) ∧
    (65536 ≤ S → 254 ≤ len.toNat) ∧ (len.toNat = 253 → S ≤ 65349) ∧
    (S = 65536 → cks slave cmd len data = 0x0000) ∧ (S = 65861 → cks slave cmd len data = 0x0145) ∧
    (S = 65535 → cks slave cmd len data = 0xFFFF)

/-- R55: the checksum depends only on the sum of the three header bytes and the multiset of payload bytes. -/
def Obligations.ChecksumIsOrderBlind : Prop :=
  ∀ (slave cmd len slave' cmd' len' : Byte) (data data' : List Byte),
    slave.toNat + cmd.toNat + len.toNat = slave'.toNat + cmd'.toNat + len'.toNat → data.Perm data' →
    cks slave cmd len data = cks slave' cmd' len' data'

/-- R56: a single corrupted byte among slave, command, payload or checksum never passes the check. -/
def Obligations.SingleByteCorruptionCaught : Prop :=
  ∀ (slave cmd len : Byte) (data : List Byte) (cand : Word), cksCheck slave cmd len data cand = true →
    (∀ x : Byte, x ≠ slave → cksCheck x cmd len data cand = false) ∧
    (∀ x : Byte, x ≠ cmd → cksCheck slave x len data cand = false) ∧
    (∀ (k : Nat) (x : Byte), k < data.length → data[k]? ≠ some x →
      cksCheck slave cmd len (data.set k x) cand = false) ∧
    (∀ x : Word, x ≠ cand → cksCheck slave cmd len data x = false)

/-- R57: a running 16-bit sum over the bytes in wire order, a running sum over all the addends in any order, and any
grouping of all the addends in any order, gives the checksum. -/
def Obligations.RunningSumIsChecksum : Prop :=
  ∀ (slave cmd len : Byte) (data : List Byte),
    runningSum (slave :: cmd :: len :: data) = cks slave cmd len data ∧
    (∀ bs : List Byte, bs.Perm (0x3A :: slave :: cmd :: len :: 0x0D :: data) →
      bs.foldl add16 0 = cks slave cmd len data) ∧
    ∀ g : Grouping, g.bytes.Perm (0x3A :: slave :: cmd :: len :: 0x0D :: data) →
      g.value = cks slave cmd len data

/-! ### Frames -/

/-- R41, R42: the frame of a request, offset by offset. -/
def Obligations.FrameLayout : Prop :=
  ∀ (slave cmd : Byte) (data : List Byte), data.length ≤ 255 →
    let f := encodeFrame slave cmd data
    let n := data.length
    let c := cks slave cmd (BitVec.ofNat 8 n) data
    f.length = 7 + n ∧ f[0]? = some 0x3A ∧ f[1]? = some slave ∧ f[2]? = some cmd ∧
    f[3]? = some (BitVec.ofNat 8 n) ∧ (∀ i : Nat, i < n → f[4 + i]? = data[i]?) ∧
    f[4 + n]? = some (c.extractLsb' 8 8) ∧ f[5 + n]? = some (c.extractLsb' 0 8) ∧ f[6 + n]? = some 0x0D

/-- R79: DECODE and FRAME satisfy their equations. -/
def Obligations.DecodeEquations : Prop :=
  ∀ (m : AddrMode),
    decodeStream m [] = ([], .seekStart) ∧
    (∀ (b : Byte) (xs : List Byte), b ≠ 0x3A → decodeStream m (b :: xs) = decodeStream m xs) ∧
    (∀ xs : List Byte, frame m xs = none → decodeStream m (0x3A :: xs) = ([], .pending)) ∧
    (∀ (xs rest : List Byte) (o : FrameOut), frame m xs = some (o, rest) →
      decodeStream m (0x3A :: xs) = (o :: (decodeStream m rest).1, (decodeStream m rest).2)) ∧
    (∀ xs : List Byte, xs.length < 3 → frame m xs = none) ∧
    (∀ (s c l : Byte) (ys : List Byte), ys.length < l.toNat + 3 → frame m (s :: c :: l :: ys) = none) ∧
    (∀ (s c l h k e : Byte) (d rest : List Byte), d.length = l.toNat →
      frame m (s :: c :: l :: (d ++ h :: k :: e :: rest)) =
        some (if e ≠ 0x0D then .disc .endMismatch
          else if ¬ addrOk m s = true then .disc .addressMismatch
          else if cks s c l d ≠ h ++ k then .disc .checksumMismatch
          else .pkt ⟨s, c, l, d⟩, rest))

/-- R80: every frame decodes to its own fields, after any prefix without a start byte, at every mode that admits its
slave byte. -/
def Obligations.FrameRoundTrip : Prop :=
  ∀ (m : AddrMode) (slave cmd : Byte) (data before : List Byte), data.length ≤ 255 →
    addrOk m slave = true → (∀ b ∈ before, b ≠ 0x3A) →
    decodeStream m (before ++ encodeFrame slave cmd data) =
      ([.pkt ⟨slave, cmd, BitVec.ofNat 8 data.length, data⟩], .seekStart)

/-- R81: a frame for another node is discarded; a promiscuous node admits every slave byte. -/
def Obligations.ForeignFrameDiscarded : Prop :=
  ∀ (a slave cmd : Byte) (data : List Byte), data.length ≤ 255 →
    (slave ≠ a → decodeStream (.addressed a) (encodeFrame slave cmd data) =
      ([.disc .addressMismatch], .seekStart)) ∧
    ∀ before : List Byte, (∀ b ∈ before, b ≠ 0x3A) →
      decodeStream .promiscuous (before ++ encodeFrame slave cmd data) =
        ([.pkt ⟨slave, cmd, BitVec.ofNat 8 data.length, data⟩], .seekStart)

/-- R82: frames whose length byte is right keep the decoder in sync: one outcome each, in order, whatever their
other bytes. -/
def Obligations.WellDelimitedFramesKeepSync : Prop :=
  ∀ (m : AddrMode) (fs : List (List Byte)), (∀ f ∈ fs, wellDelimited f) →
    (decodeStream m fs.flatten).2 = .seekStart ∧
    (decodeStream m fs.flatten).1.length = fs.length ∧
    (decodeStream m fs.flatten).1 = (fs.map fun f => (decodeStream m f).1).flatten

/-! ### Reset -/

/-- R96: RESET sets both control states and records `Reset`; it leaves the configuration and the environment alone,
whatever the state. The block's next operation is then a SEEK_START step of the decoder or a TX.ENC, and the state
reached is the same for every `ADDR_MODE`. What the rule leaves unspecified is left open here too. -/
def Obligations.ResetStep : Prop :=
  ∀ s : State, ∃ t : State, exec .reset s = .next t ∧
    t.rxState = .seekStart ∧ t.txState = .idle ∧ t.hist = s.hist ++ [.reset] ∧
    t.addrMode = s.addrMode ∧ t.rxIn = s.rxIn ∧ t.requests = s.requests ∧
    t.sinkReady = s.sinkReady ∧ t.pktReady = s.pktReady ∧
    (∀ i : Instr, decoderOp t.toBlock = some i → i = .rxSof ∨ ∃ b : Byte, i = .rxSkip b) ∧
    (∀ (k : Nat) (i : Instr), encoderOp k t.toBlock = some i → ∃ r ∈ s.requests, i = .txEnc r.slave r.cmd r.data) ∧
    ∀ m : AddrMode, exec .reset { s with addrMode := m } = .next { t with addrMode := m }

/-- The free values of a RESET stay in the ranges of R20 and R26, and its buffers have cells `0..254` only (R19, R25).
That the model's own fields stay, but for the draw counter, is the model's choice (log 3). -/
def Obligations.ResetDrawsInRange : Prop :=
  ∀ s t : State, exec .reset s = .next t →
    t.rxIdx ≤ 255 ∧ t.txPos ≤ 262 ∧ Memory.wf t.stage = true ∧ Memory.wf t.txData = true ∧
    t.env = s.env ∧ t.turns = s.turns ∧ t.cksOut = s.cksOut ∧ t.draws = s.draws + 1

/-- R96, R98: the machine right after reset, at every construction mode: the values the spec gives, and the same block
at every mode. That both
sinks start ready is R51's default, that the history starts with the one event `Reset` is log 14. -/
def Obligations.ResetState : Prop :=
  (∀ m : AddrMode,
    (State.construct m).addrMode = m ∧ (State.construct m).rxState = .seekStart ∧
    (State.construct m).txState = .idle ∧ (State.construct m).rxIn = [] ∧ (State.construct m).requests = [] ∧
    (State.construct m).sinkReady = true ∧ (State.construct m).pktReady = true ∧
    (State.construct m).hist = [.reset]) ∧
  (∀ m m' : AddrMode, (State.construct m).toBlock = (State.construct m').toBlock) ∧
  State.reset = State.construct State.reset.addrMode

/-- R97: a reset in the middle of a frame hands off and discards nothing, emits nothing, leaves every unread byte, and
the decoder's next operation scans for a start byte. The encoder is idle, and a request taken before the reset is not
emitted again: only the requests still presented can be accepted. -/
def Obligations.ResetAbandonsFrames : Prop :=
  ∀ (s t : State), exec .reset s = .next t →
    outcomes t.hist = outcomes s.hist ∧ wireBytes t.hist = wireBytes s.hist ∧
    t.rxIn = s.rxIn ∧ t.requests = s.requests ∧ t.rxState = .seekStart ∧ t.txState = .idle ∧
    (∀ (b : Byte) (rest : List Byte), s.rxIn = b :: rest →
      decoderOp t.toBlock = some (if b = 0x3A then .rxSof else .rxSkip b)) ∧
    (s.rxIn = [] → decoderOp t.toBlock = none) ∧ (s.requests = [] → ∀ k : Nat, encoderOp k t.toBlock = none)

/-! ### The step -/

/-- R49, R67, R93: on the decoder's turn (or with no turns listed, when the decoder goes first: log 5) the head byte's
operation runs. -/
def Obligations.StepRunsSelectedByte : Prop :=
  ∀ (s : State) (b : Byte) (rest : List Byte) (ts : List Turn) (i : Instr),
    s.turns = .decoder :: ts ∨ (s.turns = [] ∧ ts = []) → s.rxIn = b :: rest →
    decode (.byte s.rxState b) = .ok i → step s = exec i { s with turns := ts }

/-- R60, R63, R77, R93: on its turn an agent's port operation runs; with no turns listed the order is the decoder,
then the encoder (log 5). -/
def Obligations.StepRunsPortOperation : Prop :=
  ∀ (s : State) (ts : List Turn),
    (s.turns = .decoder :: ts ∨ (s.turns = [] ∧ ts = []) → s.rxState = .emit → s.pktReady = true →
      step s = exec .rxAccept { s with turns := ts }) ∧
    (∀ k : Nat, s.turns = .encoder k :: ts ∨ (s.turns = [] ∧ ts = [] ∧ k = 0 ∧ decoderOp s.toBlock = none) →
      (∀ r : Request, s.txState = .idle → s.requests[k]? = some r →
        step s = exec (.txEnc r.slave r.cmd r.data) { s with turns := ts }) ∧
      (s.txState = .send → s.sinkReady = true → step s = exec .txByte { s with turns := ts }))

/-- R93, R51, R50: what each move of the environment does on its turn. -/
def Obligations.EnvironmentMoves : Prop :=
  ∀ (s : State) (m : EnvMove) (rest : List EnvMove) (ts : List Turn),
    s.turns = .environment :: ts → s.env = m :: rest →
    let u := { s with turns := ts, env := rest }
    (∀ bs : List Byte, m = .rx bs → step s = .next { u with rxIn := s.rxIn ++ bs }) ∧
    (∀ r : Request, m = .enc r → r.data.length ≤ 255 → step s = .next { u with requests := s.requests ++ [r] }) ∧
    (∀ x : Bool, m = .sink x → step s = .next { u with sinkReady := x }) ∧
    (∀ x : Bool, m = .pkt x → step s = .next { u with pktReady := x }) ∧
    (m = .reset → step s = exec .reset u) ∧
    (∀ (slave cmd len : Byte) (data : List Byte), m = .cks slave cmd len data → data.length = len.toNat →
      step s = exec (.cks slave cmd len data) u) ∧
    (∀ (slave cmd len : Byte) (data : List Byte) (cand : Word), m = .cksCheck slave cmd len data cand →
      data.length = len.toNat → step s = exec (.cksCheck slave cmd len data cand) u)

/-- R10, R64, R67, R77, R91: an operation whose guard is false does not happen: nothing moves.
The next state with nothing changed is the model's form of that (log 4). -/
def Obligations.DisabledOperationDoesNotMove : Prop :=
  ∀ (i : Instr) (s : State), i.wellFormed = true → ¬ enabled i s → exec i s = .next s

/-- R10: in a state with the invariant every enabled operation takes its step; every one but a checksum port adds to
the event history. -/
def Obligations.EnabledOperationCompletes : Prop :=
  ∀ (i : Instr) (s : State), i.wellFormed = true → Inv s → enabled i s →
    ∃ (t : State) (es : List Event), exec i s = .next t ∧ t.hist = s.hist ++ es ∧
      ((isDecoderOp i = true ∨ isEncoderOp i = true ∨ i = .reset) → es ≠ [])

/-- R40, R91: with no operation enabled and no move of the environment left, the machine stays as it is (in the
model's form, log 4). -/
def Obligations.StuckMachineStays : Prop :=
  ∀ s : State, s.turns = [] → s.env = [] →
    (if s.rxState = .emit then s.pktReady = false else s.rxIn = []) →
    (if s.txState = .idle then s.requests = [] else s.sinkReady = false) →
    step s = .next s

/-- R40, R67, R77, R101, R104: a decoder with no input byte, and a decoder in EMIT whose sink withholds acceptance,
waits in whatever state it is in, for as many turns as it is given: nothing but the turns is used up, and no byte is
consumed (in the model's form of a wait, log 4). -/
def Obligations.DecoderWaits : Prop :=
  ∀ (n : Nat) (s : State) (ts : List Turn),
    (s.rxState ≠ .emit ∧ s.rxIn = []) ∨ (s.rxState = .emit ∧ s.pktReady = false) →
    s.turns = List.replicate n .decoder ++ ts →
    Host.Core.run core n s = .next { s with turns := ts }

/-! ### Whole-machine rules -/

/-- R20, R25, R26, R62, R75: the invariant holds right after reset, at every construction mode. -/
def Obligations.InvariantAtReset : Prop :=
  Inv State.reset ∧ ∀ (m : AddrMode) (lines : List EnvMove), Inv (State.ofProgram m lines)

/-- R20, R25, R26, R62, R75: every step keeps the invariant. -/
def Obligations.StepKeepsInvariant : Prop :=
  ∀ s t : State, Inv s → step s = .next t → Inv t

/-- R72, R63, R83: no state with the invariant faults; the block has no error but the discards. -/
def Obligations.NoFaultUnderInvariant : Prop :=
  ∀ (s : State) (f : Fault), Inv s → step s ≠ .fault f

/-- The model's own stops (log 11): the two forms outside the ranges of R20 and R26, where the pseudocode names a cell
or a frame byte that does not exist, fault by name. -/
def Obligations.OutOfRangeFormsFault : Prop :=
  ∀ (s : State) (b : Byte) (rest : List Byte),
    (s.rxState = .payload → s.rxIn = b :: rest → 255 ≤ s.rxIdx → exec (.rxData b) s = .fault .stageIndex) ∧
    (s.txState = .send → s.sinkReady = true → 7 + s.txLen.toNat ≤ s.txPos →
      exec .txByte s = .fault .framePosition)

/-- R6, R14: `ADDR_MODE` is a fixed argument of the step relation `stepAt`, and no step changes it. A run of the
machine, of any length, is the run of the step relation at the one mode the machine has, with that mode written beside
each block; each of its operations is the step relation's operation at that mode; and every operation but RX.EOF does
the same at every mode. That the host's machine keeps the mode beside the block is the model's choice (log 1). -/
def Obligations.AddrModeNeverChanges : Prop :=
  (∀ s t : State, step s = .next t → t.addrMode = s.addrMode) ∧
  (∀ (n : Nat) (s : State),
    Host.Core.run core n s = withMode s.addrMode (Host.Core.run (coreAt s.addrMode) n s.toBlock)) ∧
  (∀ (i : Instr) (s : State), exec i s = withMode s.addrMode (execAt s.addrMode i s.toBlock)) ∧
  ∀ (i : Instr) (m m' : AddrMode) (b : Block), i ≠ .rxEof → execAt m i b = execAt m' i b

/-- R34: input bytes are consumed once each, in order: what was taken, then what is still in the stream, only ever
grows, at its end, by what the byte source appends. -/
def Obligations.InputConsumedInOrder : Prop :=
  ∀ s t : State, step s = .next t →
    takenBytes t.hist ++ t.rxIn = takenBytes s.hist ++ s.rxIn ∨
    ∃ bs : List Byte, s.env = .rx bs :: t.env ∧ t.hist = s.hist ∧ t.rxIn = s.rxIn ++ bs

/-- R28, R83, R87: which operation can record which event; in particular a `Discard` comes from the VALIDATE step
only, and each `RxTake` from the byte that selects the operation. -/
def Obligations.EventsComeFromTheirOperations : Prop :=
  ∀ (i : Instr) (s t : State), exec i s = .next t →
    ∃ es : List Event, t.hist = s.hist ++ es ∧
      (∀ b : Byte, .rxTake b ∈ es → ∃ st : RxState, encode i = .byte st b) ∧
      (∀ r : Reason, .discard r ∈ es → i = .rxEof ∨ ∃ e : Byte, i = .rxEofBad e) ∧
      (∀ p : Packet, .pktOut p ∈ es → i = .rxAccept ∧ s.presented = some p) ∧
      (∀ (slave cmd : Byte) (data : List Byte), .encAccept slave cmd data ∈ es → i = .txEnc slave cmd data) ∧
      (∀ b : Byte, .txOut b ∈ es → i = .txByte) ∧
      (.reset ∈ es → i = .reset) ∧ es.length ≤ 2

/-- R38, R93: a decoder operation writes no state of the encoder and of its requesters, and an encoder operation
none of the decoder and of the input stream. -/
def Obligations.UnitsShareNoState : Prop :=
  ∀ (i : Instr) (s t : State), exec i s = .next t →
    (isDecoderOp i = true →
      t = { s with
        rxState := t.rxState, rxSlave := t.rxSlave, rxCmd := t.rxCmd, rxLen := t.rxLen, stage := t.stage,
        rxIdx := t.rxIdx, rxCks := t.rxCks, rxIn := t.rxIn, hist := t.hist }) ∧
    (isEncoderOp i = true →
      t = { s with
        txState := t.txState, txSlave := t.txSlave, txCmd := t.txCmd, txLen := t.txLen, txCks := t.txCks,
        txData := t.txData, txPos := t.txPos, requests := t.requests, hist := t.hist })

/-- R38, R51: a step of the decoder and a step of the encoder can be taken in either order, with the same end state
and the same events of each unit. -/
def Obligations.UnitsCommute : Prop :=
  ∀ (i j : Instr) (s a b : State), isDecoderOp i = true → isEncoderOp j = true →
    exec i s = .next a → exec j s = .next b →
    ∃ u v : State, exec j a = .next u ∧ exec i b = .next v ∧ { u with hist := v.hist } = v ∧
      decoderEvents u.hist = decoderEvents v.hist ∧ encoderEvents u.hist = encoderEvents v.hist

/-- R65, R79, R81: right after reset, at every construction mode, nothing is due on the wire, the decoder agrees with
DECODE, and no packet has left. -/
def Obligations.ObserversAgreeAtReset : Prop :=
  (WireExact State.reset ∧ DecoderExact State.reset ∧ OnlyAdmitted State.reset) ∧
  ∀ (m : AddrMode) (lines : List EnvMove),
    WireExact (State.ofProgram m lines) ∧ DecoderExact (State.ofProgram m lines) ∧
    OnlyAdmitted (State.ofProgram m lines)

/-- R36, R75, R76, R81: no packet that the address filter does not admit is ever handed off, and each carries exactly
as many payload bytes as its length says. -/
def Obligations.OnlyAdmittedPacketsLeave : Prop :=
  ∀ s t : State, Inv s → OnlyAdmitted s → step s = .next t → OnlyAdmitted t

/-- R35, R61, R65, R97: the bytes on the wire are the frames of the accepted requests, one after another, each whole
unless a reset cut it short. -/
def Obligations.WireIsAcceptedFrames : Prop :=
  ∀ s t : State, Inv s → WireExact s → step s = .next t → WireExact t

/-- R79, R78, R37: the decoder computes DECODE: at every step, under every interleaving, the outcomes recorded since
the last reset are those of the bytes taken since then. -/
def Obligations.DecoderComputesDecode : Prop :=
  ∀ s t : State, Inv s → DecoderExact s → step s = .next t → DecoderExact t

/-- R96, R18, R19, R25: values a reset leaves unspecified, and stale ones, never reach an output: two states that
differ in such values only step alike, with the same events, and stay so. -/
def Obligations.StaleValuesNeverReachOutputs : Prop :=
  (∀ s t u v : State, Alike s t → exec .reset s = .next u → exec .reset t = .next v → Alike u v) ∧
  ∀ s t s' : State, Inv s → Inv t → Alike s t → step s = .next s' →
    ∃ t' : State, step t = .next t' ∧ Alike s' t'

/-- R65, R64: given one turn to accept and one turn for each byte, with the sink ready, the encoder emits exactly the
request's frame and is in IDLE again. -/
def Obligations.EncoderEmitsWholeFrame : Prop :=
  ∀ (s : State) (r : Request) (rs : List Request) (ts : List Turn),
    Inv s → s.txState = .idle → s.sinkReady = true → s.requests = r :: rs →
    s.turns = List.replicate (8 + r.data.length) (.encoder 0) ++ ts →
    ∃ t : State, Host.Core.run core (8 + r.data.length) s = .next t ∧ t.turns = ts ∧
      t.txState = .idle ∧ t.requests = rs ∧ t.rxIn = s.rxIn ∧ t.rxState = s.rxState ∧
      t.hist = s.hist ++ .encAccept r.slave r.cmd r.data ::
        (encodeFrame r.slave r.cmd r.data).map .txOut

/-- R80, R77: given one turn for each byte and one to hand off, with the packet sink accepting, a frame at the head
of the input stream becomes its packet and the decoder is in SEEK_START again, with the rest of the stream
unread. -/
def Obligations.DecoderDeliversFrame : Prop :=
  ∀ (s : State) (slave cmd : Byte) (data rest : List Byte) (ts : List Turn),
    Inv s → s.rxState = .seekStart → s.pktReady = true → data.length ≤ 255 →
    addrOk s.addrMode slave = true → s.rxIn = encodeFrame slave cmd data ++ rest →
    s.turns = List.replicate (8 + data.length) .decoder ++ ts →
    ∃ t : State, Host.Core.run core (8 + data.length) s = .next t ∧ t.turns = ts ∧
      t.rxState = .seekStart ∧ t.rxIn = rest ∧ t.txState = s.txState ∧ t.requests = s.requests ∧
      t.hist = s.hist ++ (encodeFrame slave cmd data).map .rxTake ++
        [.pktOut ⟨slave, cmd, BitVec.ofNat 8 data.length, data⟩]

/-- R15: the board address reads back as constructed; under the sentinel reading (log 18) every number is the address
of exactly one legal mode. -/
def Obligations.BoardAddressReadBack : Prop :=
  (∀ a : Byte, boardAddress (.addressed a) = a) ∧
  boardAddress .promiscuous = Config.stateScreenValue ∧
  (∀ a : Byte, boardAddress (modeOfAddress a) = a ∧ sentinelLegal (modeOfAddress a)) ∧
  ∀ m : AddrMode, sentinelLegal m → modeOfAddress (boardAddress m) = m

/-! ### Beside the statements above -/

/-- R73, R74: the two checksum bytes of a frame, one after the other. RX.CKSH writes bits 15:8 of `rx_cks`, RX.CKSL
then bits 7:0, and the register holds the two bytes, high byte first. What bits 7:0 hold between the two steps is left
open. All else is unchanged. -/
def Obligations.CandidateChecksumAssembled : Prop :=
  ∀ (s : State) (h l : Byte) (rest : List Byte), s.rxState = .cksHi → s.rxIn = h :: l :: rest →
    ∃ (v w : Word),
      exec (.rxCksh h) s = .next { s with
        rxIn := l :: rest, hist := s.hist ++ [.rxTake h], rxCks := v, rxState := .cksLo } ∧
      v.extractLsb' 8 8 = h ∧
      exec (.rxCksl l) { s with
        rxIn := l :: rest, hist := s.hist ++ [.rxTake h], rxCks := v, rxState := .cksLo } =
        .next { s with
          rxIn := rest, hist := s.hist ++ [.rxTake h, .rxTake l], rxCks := w, rxState := .validate } ∧
      w.toNat = h.toNat * 256 + l.toNat
end

