-- ==== Sys2Proof/Laws/Frame.lean ====
section
/-! SUPPORT. Lemmas about the halves of a 16-bit value, the checksum and the pure functions ENCODE and DECODE. -/

namespace Sys2Proof.Machine

/-! ### Halves of a 16-bit value -/

theorem join_toNat (h l : Byte) : (join h l).toNat = h.toNat * 256 + l.toNat := by
  rw [join, BitVec.toNat_append, Nat.shiftLeft_eq, Nat.mul_comm, ← Nat.two_pow_add_eq_or_of_lt l.isLt]

theorem hi_toNat (v : Word) : (hi v).toNat = v.toNat / 256 := by
  have := v.isLt
  simp only [hi, BitVec.extractLsb'_toNat, Nat.shiftRight_eq_div_pow]
  omega

theorem lo_toNat (v : Word) : (lo v).toNat = v.toNat % 256 := by
  simp [lo, BitVec.extractLsb'_toNat]

@[simp] theorem hi_join (h l : Byte) : hi (join h l) = h := by
  apply BitVec.eq_of_toNat_eq
  rw [hi_toNat, join_toNat]
  have := l.isLt
  omega

@[simp] theorem lo_join (h l : Byte) : lo (join h l) = l := by
  apply BitVec.eq_of_toNat_eq
  rw [lo_toNat, join_toNat]
  have := l.isLt
  omega

@[simp] theorem join_hi_lo (v : Word) : join (hi v) (lo v) = v := by
  apply BitVec.eq_of_toNat_eq
  rw [join_toNat, hi_toNat, lo_toNat]
  omega

/-! ### The checksum -/

theorem cks_toNat (slave cmd len : Byte) (data : List Byte) :
    (cks slave cmd len data).toNat = exactSum slave cmd len data % 65536 := by
  simp [cks]

theorem add16_toNat (a : Word) (b : Byte) : (add16 a b).toNat = (a.toNat + b.toNat) % 65536 := by
  simp [add16, BitVec.toNat_setWidth, Nat.mod_eq_of_lt (show b.toNat < 65536 by have := b.isLt; omega)]

/-- Adding bytes one at a time is adding their exact sum. -/
theorem foldl_add16_toNat (bs : List Byte) (a : Word) :
    (bs.foldl add16 a).toNat = (a.toNat + (bs.map BitVec.toNat).sum) % 65536 := by
  induction bs generalizing a with
  | nil => simp [Nat.mod_eq_of_lt a.isLt]
  | cons b bs ih =>
    rw [List.foldl_cons, ih, add16_toNat, List.map_cons, List.sum_cons]
    omega

/-- A sum of bytes is at most 255 for each. -/
theorem sum_bytes_le (data : List Byte) : (data.map BitVec.toNat).sum ≤ 255 * data.length := by
  induction data with
  | nil => simp
  | cons b bs ih =>
    have := b.isLt
    simp only [List.map_cons, List.sum_cons, List.length_cons]
    omega

theorem lenByte_toNat (data : List Byte) (h : data.length ≤ maxLen) : (lenByte data).toNat = data.length := by
  have : maxLen = 255 := rfl
  simp only [lenByte, BitVec.toNat_ofNat]
  omega

/-! ### FRAME and DECODE -/

/-- What becomes of a complete candidate frame. -/
def frameOutcome (m : AddrMode) (s c l : Byte) (d : List Byte) (cand : Word) (e : Byte) : FrameOut :=
  match verdict m s c l d cand e with
  | some r => .disc r
  | none => .pkt ⟨s, c, l, d⟩

/-- FRAME on a complete candidate frame. -/
theorem frame_complete (m : AddrMode) (s c l h k e : Byte) (d rest : List Byte) (hd : d.length = l.toNat) :
    frame m (s :: c :: l :: (d ++ h :: k :: e :: rest)) = some (frameOutcome m s c l d (join h k) e, rest) := by
  have hdrop : (d ++ h :: k :: e :: rest).drop l.toNat = h :: k :: e :: rest := by rw [← hd, List.drop_left]
  have htake : (d ++ h :: k :: e :: rest).take l.toNat = d := by rw [← hd, List.take_left]
  simp only [frame, hdrop, htake, frameOutcome]
  cases verdict m s c l d (join h k) e <;> rfl

/-- FRAME gives an outcome only for a complete candidate frame. -/
theorem frame_inv {m : AddrMode} {xs rest : List Byte} {o : FrameOut} (hf : frame m xs = some (o, rest)) :
    ∃ (s c l h k e : Byte) (d : List Byte), d.length = l.toNat ∧
      xs = s :: c :: l :: (d ++ h :: k :: e :: rest) ∧ o = frameOutcome m s c l d (join h k) e := by
  match xs, hf with
  | s :: c :: l :: ys, hf =>
    simp only [frame] at hf
    split at hf
    · rename_i h k e r hdrop
      have hlen : (ys.take l.toNat).length = l.toNat := by
        have := congrArg List.length hdrop
        simp only [List.length_drop, List.length_cons] at this
        rw [List.length_take]
        omega
      have hys : ys = ys.take l.toNat ++ h :: k :: e :: r := by
        rw [← hdrop, List.take_append_drop]
      have hout : frameOutcome m s c l (ys.take l.toNat) (join h k) e = o ∧ r = rest := by
        cases hv : verdict m s c l (ys.take l.toNat) (join h k) e <;> simp [hv] at hf <;>
          exact ⟨by rw [← hf.1, frameOutcome, hv], hf.2⟩
      refine ⟨s, c, l, h, k, e, ys.take l.toNat, hlen, ?_, hout.1.symm⟩
      rw [← hout.2, ← hys]
    · cases hf

/-- FRAME leaves a shorter list. -/
theorem frame_length {m : AddrMode} {xs rest : List Byte} {o : FrameOut} (hf : frame m xs = some (o, rest)) :
    rest.length < xs.length := by
  obtain ⟨s, c, l, h, k, e, d, hd, rfl, -⟩ := frame_inv hf
  simp only [List.length_cons, List.length_append]
  omega

/-- Bytes after a complete candidate frame do not change its outcome. -/
theorem frame_append {m : AddrMode} {xs rest : List Byte} {o : FrameOut} (hf : frame m xs = some (o, rest))
    (ys : List Byte) : frame m (xs ++ ys) = some (o, rest ++ ys) := by
  obtain ⟨s, c, l, h, k, e, d, hd, rfl, rfl⟩ := frame_inv hf
  simpa using frame_complete m s c l h k e d (rest ++ ys) hd

/-- Any bound of at least the length gives the same result. -/
theorem decodeBounded_bound (m : AddrMode) (n k : Nat) (xs : List Byte) (hn : xs.length ≤ n) (hk : xs.length ≤ k) :
    decodeBounded m n xs = decodeBounded m k xs := by
  induction n generalizing k xs with
  | zero =>
    cases List.length_eq_zero_iff.1 (Nat.le_zero.1 hn)
    cases k <;> rfl
  | succ n ih =>
    cases xs with
    | nil => cases k <;> rfl
    | cons b xs =>
      simp only [List.length_cons] at hn hk
      obtain ⟨k, rfl⟩ : ∃ k', k = k' + 1 := ⟨k - 1, by omega⟩
      simp only [decodeBounded]
      split
      · exact ih k xs (by omega) (by omega)
      · split
        · rfl
        · have := frame_length ‹_›
          rw [ih k _ (by omega) (by omega)]

@[simp] theorem decodeStream_nil (m : AddrMode) : decodeStream m [] = ([], .seekStart) := rfl

theorem decodeStream_skip (m : AddrMode) {b : Byte} (hb : b ≠ startByte) (xs : List Byte) :
    decodeStream m (b :: xs) = decodeStream m xs := by
  simp [decodeStream, decodeBounded, hb]

theorem decodeStream_pending {m : AddrMode} {xs : List Byte} (hf : frame m xs = none) :
    decodeStream m (startByte :: xs) = ([], .pending) := by
  simp [decodeStream, decodeBounded, hf]

theorem decodeStream_frame {m : AddrMode} {xs rest : List Byte} {o : FrameOut} (hf : frame m xs = some (o, rest)) :
    decodeStream m (startByte :: xs) = (o :: (decodeStream m rest).1, (decodeStream m rest).2) := by
  have := frame_length hf
  simp [decodeStream, decodeBounded, hf, decodeBounded_bound m xs.length rest.length rest (by omega) (by omega)]

/-- DECODE goes on after bytes that leave it in SEEK_START as if it had just begun. -/
theorem decodeStream_append {m : AddrMode} {xs : List Byte} (hx : (decodeStream m xs).2 = .seekStart)
    (ys : List Byte) :
    decodeStream m (xs ++ ys) = ((decodeStream m xs).1 ++ (decodeStream m ys).1, (decodeStream m ys).2) := by
  suffices h : ∀ (n : Nat) (xs : List Byte), xs.length ≤ n → (decodeStream m xs).2 = .seekStart →
      decodeStream m (xs ++ ys) = ((decodeStream m xs).1 ++ (decodeStream m ys).1, (decodeStream m ys).2) from
    h xs.length xs (le_refl _) hx
  intro n
  induction n with
  | zero =>
    intro xs hn _
    cases List.length_eq_zero_iff.1 (Nat.le_zero.1 hn)
    simp
  | succ n ih =>
    intro xs hn hx
    cases xs with
    | nil => simp
    | cons b xs =>
      simp only [List.length_cons] at hn
      by_cases hb : b = startByte
      · subst hb
        cases hf : frame m xs with
        | none => rw [decodeStream_pending hf] at hx; cases hx
        | some p =>
          obtain ⟨o, rest⟩ := p
          have := frame_length hf
          rw [decodeStream_frame hf] at hx
          rw [List.cons_append, decodeStream_frame (frame_append hf ys), decodeStream_frame hf,
            ih rest (by omega) hx]
          rfl
      · rw [List.cons_append, decodeStream_skip m hb, decodeStream_skip m hb]
        exact ih xs (by omega) (by rwa [decodeStream_skip m hb] at hx)

/-- Bytes without a start byte are skipped. -/
theorem decodeStream_garbage (m : AddrMode) {before : List Byte} (hb : ∀ b ∈ before, b ≠ startByte)
    (xs : List Byte) : decodeStream m (before ++ xs) = decodeStream m xs := by
  induction before with
  | nil => rfl
  | cons b bs ih =>
    rw [List.cons_append, decodeStream_skip m (hb b (by simp)), ih fun x hx => hb x (by simp [hx])]

end Sys2Proof.Machine
end

