-- ==== Sys2Proof/Laws/Memory.lean ====
section
/-! SUPPORT. The laws of the byte buffers: a read after a write, the canonical form kept by every operation. -/

namespace Sys2Proof.Machine

@[simp] theorem Memory.read_nil (i : Nat) : Memory.read [] i = unlisted := rfl

theorem Memory.read_cons (a : Nat) (c : Byte) (m : Memory) (i : Nat) :
    Memory.read ((a, c) :: m) i = if a = i then c else Memory.read m i := rfl

/-- Every listed index of `m` is above `k`. -/
def Memory.above (k : Nat) (m : Memory) : Prop := ∀ e ∈ m, k < e.1

/-- A cell below every listed one reads as unlisted. -/
theorem Memory.read_of_above {k : Nat} {m : Memory} (h : Memory.above k m) {i : Nat} (hi : i ≤ k) :
    Memory.read m i = unlisted := by
  induction m with
  | nil => rfl
  | cons e m ih =>
    obtain ⟨a, c⟩ := e
    have ha : k < a := h (a, c) (by simp)
    rw [Memory.read_cons, if_neg (by omega), ih fun x hx => h x (by simp [hx])]

/-- `rising` in the form the inductions use: the first index is below all the others. -/
theorem Memory.rising_cons {a : Nat} {c : Byte} {m : Memory} :
    Memory.rising ((a, c) :: m) = true ↔ Memory.above a m ∧ Memory.rising m = true := by
  induction m generalizing a c with
  | nil => simp [Memory.rising, Memory.above]
  | cons e m ih =>
    obtain ⟨b, d⟩ := e
    constructor
    · intro h
      simp only [Memory.rising, Bool.and_eq_true, decide_eq_true_eq] at h
      refine ⟨fun x hx => ?_, h.2⟩
      rcases List.mem_cons.1 hx with rfl | hx
      · exact h.1
      · exact Nat.lt_trans h.1 ((ih.1 h.2).1 x hx)
    · intro h
      simp only [Memory.rising, Bool.and_eq_true, decide_eq_true_eq]
      exact ⟨h.1 (b, d) (by simp), h.2⟩

/-- The canonical form, one entry at a time. -/
theorem Memory.wf_cons {a : Nat} {c : Byte} {m : Memory} :
    Memory.wf ((a, c) :: m) = true ↔
      Memory.above a m ∧ a < maxLen ∧ c ≠ unlisted ∧ Memory.wf m = true := by
  simp only [Memory.wf, Bool.and_eq_true, Memory.rising_cons, List.all_cons, decide_eq_true_eq, bne_iff_ne]
  tauto

@[simp] theorem Memory.wf_nil : Memory.wf [] = true := rfl

/-- An index listed after a write was listed before, or is the written one. -/
theorem Memory.mem_write {m : Memory} {i : Nat} {b : Byte} {e : Host.Cell} (h : e ∈ Memory.write m i b) :
    e = (i, b) ∨ e ∈ m := by
  induction m with
  | nil =>
    rw [Memory.write] at h
    split at h <;> simp_all
  | cons x m ih =>
    obtain ⟨a, c⟩ := x
    rw [Memory.write] at h
    split at h
    · split at h
      · exact .inr h
      · simpa using h
    · split at h
      · split at h
        · exact .inr (by simp [h])
        · simp only [List.mem_cons] at h ⊢
          tauto
      · rcases List.mem_cons.1 h with rfl | h
        · exact .inr (by simp)
        · rcases ih h with rfl | h
          · exact .inl rfl
          · exact .inr (by simp [h])

/-- A write to a cell that exists keeps the canonical form. -/
theorem Memory.write_wf {m : Memory} (h : Memory.wf m = true) {i : Nat} (hi : i < maxLen) (b : Byte) :
    Memory.wf (Memory.write m i b) = true := by
  induction m with
  | nil =>
    rw [Memory.write]
    split
    · rfl
    · exact Memory.wf_cons.2 ⟨by simp [Memory.above], hi, ‹_›, rfl⟩
  | cons x m ih =>
    obtain ⟨a, c⟩ := x
    obtain ⟨hab, ha, hc, hm⟩ := Memory.wf_cons.1 h
    rw [Memory.write]
    split
    · split
      · exact h
      · refine Memory.wf_cons.2 ⟨fun e he => ?_, hi, ‹_›, h⟩
        rcases List.mem_cons.1 he with rfl | he
        · assumption
        · exact Nat.lt_trans ‹_› (hab e he)
    · split
      · split
        · exact hm
        · subst_vars
          exact Memory.wf_cons.2 ⟨hab, ha, ‹_›, hm⟩
      · refine Memory.wf_cons.2 ⟨fun e he => ?_, ha, hc, ih hm⟩
        rcases Memory.mem_write he with rfl | he
        · show a < i
          omega
        · exact hab e he

/-- A read after a write: the written cell holds the byte, every other cell what it held. -/
theorem Memory.read_write {m : Memory} (h : Memory.wf m = true) (i : Nat) (b : Byte) (j : Nat) :
    Memory.read (Memory.write m i b) j = if j = i then b else Memory.read m j := by
  induction m with
  | nil =>
    rw [Memory.write]
    split
    · split <;> simp_all
    · rw [Memory.read_cons]
      by_cases hj : j = i
      · simp [hj]
      · rw [if_neg (by omega), if_neg hj]
  | cons x m ih =>
    obtain ⟨a, c⟩ := x
    obtain ⟨hab, _, _, hm⟩ := Memory.wf_cons.1 h
    rw [Memory.write]
    split
    · have hlt : i < a := ‹_›
      have hu : Memory.read ((a, c) :: m) i = unlisted := by
        rw [Memory.read_cons, if_neg (by omega), Memory.read_of_above hab (by omega)]
      split
      · by_cases hj : j = i
        · subst hj
          rw [hu, if_pos rfl]
          simp_all
        · rw [if_neg hj]
      · rw [Memory.read_cons]
        by_cases hj : j = i
        · simp [hj]
        · rw [if_neg (by omega), if_neg hj]
    · split
      · have hia : i = a := ‹_›
        subst hia
        have hu : Memory.read m i = unlisted := Memory.read_of_above hab (le_refl _)
        rw [Memory.read_cons]
        split
        · by_cases hj : j = i
          · subst hj
            simp_all
          · rw [if_neg hj, if_neg (by omega)]
        · rw [Memory.read_cons]
          by_cases hj : j = i
          · simp [hj]
          · rw [if_neg (by omega), if_neg hj, if_neg (by omega)]
      · rw [Memory.read_cons, Memory.read_cons, ih hm]
        by_cases hj : a = j
        · rw [if_pos hj, if_pos hj, if_neg (by omega)]
        · rw [if_neg hj, if_neg hj]

/-- Loading data into cells that exist keeps the canonical form. -/
theorem Memory.load_wf {m : Memory} (h : Memory.wf m = true) (k : Nat) (data : List Byte)
    (hk : k + data.length ≤ maxLen) : Memory.wf (Memory.load m k data) = true := by
  induction data generalizing m k with
  | nil => exact h
  | cons b bs ih =>
    simp only [List.length_cons] at hk
    exact ih (Memory.write_wf h (by omega) b) (k + 1) (by omega)

/-- What each cell holds after a load. -/
theorem Memory.read_load {m : Memory} (h : Memory.wf m = true) (k : Nat) (data : List Byte)
    (hk : k + data.length ≤ maxLen) (j : Nat) :
    Memory.read (Memory.load m k data) j =
      if k ≤ j then (data[j - k]?).getD (Memory.read m j) else Memory.read m j := by
  induction data generalizing m k with
  | nil => simp [Memory.load]
  | cons b bs ih =>
    simp only [List.length_cons] at hk
    rw [Memory.load, ih (Memory.write_wf h (by omega) b) (k + 1) (by omega), Memory.read_write h]
    rcases Nat.lt_trichotomy j k with hj | hj | hj
    · rw [if_neg (by omega), if_neg (by omega), if_neg (by omega)]
    · subst hj
      simp
    · have hjk : j - k = (j - (k + 1)) + 1 := by omega
      rw [if_pos (by omega), if_neg (by omega), if_pos (by omega), hjk, List.getElem?_cons_succ]

/-- A slice has as many bytes as asked for. -/
@[simp] theorem Memory.length_slice (m : Memory) (n : Nat) : (Memory.slice m n).length = n := by
  simp [Memory.slice]

/-- The bytes of a slice. -/
theorem Memory.getElem?_slice (m : Memory) (n i : Nat) :
    (Memory.slice m n)[i]? = if i < n then some (Memory.read m i) else none := by
  simp only [Memory.slice, List.getElem?_map]
  split
  · rw [List.getElem?_range ‹_›]
    rfl
  · rw [List.getElem?_eq_none (by simp; omega)]
    rfl

/-- A slice of one more cell. -/
theorem Memory.slice_succ (m : Memory) (n : Nat) :
    Memory.slice m (n + 1) = Memory.slice m n ++ [Memory.read m n] := by
  simp [Memory.slice, List.range_succ]

/-- Slices agree when the cells in them do. -/
theorem Memory.slice_congr {m m' : Memory} {n : Nat} (h : ∀ i, i < n → Memory.read m i = Memory.read m' i) :
    Memory.slice m n = Memory.slice m' n := by
  simp only [Memory.slice]
  exact List.map_congr_left fun i hi => h i (List.mem_range.1 hi)

/-- A write at or above the end of a slice leaves the slice. -/
theorem Memory.slice_write {m : Memory} (h : Memory.wf m = true) (n i : Nat) (b : Byte) (hi : n ≤ i) :
    Memory.slice (Memory.write m i b) n = Memory.slice m n :=
  Memory.slice_congr fun j hj => by rw [Memory.read_write h, if_neg (by omega)]

/-- The loaded data reads back whole. -/
theorem Memory.slice_load {m : Memory} (h : Memory.wf m = true) (data : List Byte) (hd : data.length ≤ maxLen) :
    Memory.slice (Memory.load m 0 data) data.length = data := by
  apply List.ext_getElem?
  intro i
  rw [Memory.getElem?_slice]
  split
  · rename_i hi
    rw [Memory.read_load h 0 data (by omega)]
    simp [List.getElem?_eq_getElem hi]
  · rename_i hi
    exact (List.getElem?_eq_none (by omega)).symm

/-- A buffer built from its cells is canonical. -/
theorem Memory.ofCells_wf (f : Nat → Byte) : Memory.wf (Memory.ofCells f) = true := by
  suffices h : ∀ (k n : Nat), k + n ≤ maxLen →
      Memory.wf ((List.range' k n).filterMap fun i => if f i = unlisted then none else some (i, f i)) = true by
    have := h 0 maxLen (by omega)
    rwa [← List.range_eq_range'] at this
  intro k n
  induction n generalizing k with
  | zero => intro _; rfl
  | succ n ih =>
    intro hk
    rw [List.range'_succ, List.filterMap_cons]
    split
    · exact ih (k + 1) (by omega)
    · rename_i e he
      split at he
      · cases he
      · cases he
        refine Memory.wf_cons.2 ⟨fun e he => ?_, by omega, ‹_›, ih (k + 1) (by omega)⟩
        obtain ⟨i, hi, hie⟩ := List.mem_filterMap.1 he
        split at hie
        · cases hie
        · cases hie
          show k < i
          have := (List.mem_range'_1.1 hi).1
          omega

end Sys2Proof.Machine
end

