-- ==== Sys2Proof/Laws/State.lean ====
section
/-! SUPPORT. What each named update of the state does to each field: one lemma per field per update. -/

namespace Sys2Proof.Machine

section Record
variable (s : Block) (e : Event)

@[simp] theorem Block.record_rxState : (s.record e).rxState = s.rxState := rfl
@[simp] theorem Block.record_rxSlave : (s.record e).rxSlave = s.rxSlave := rfl
@[simp] theorem Block.record_rxCmd : (s.record e).rxCmd = s.rxCmd := rfl
@[simp] theorem Block.record_rxLen : (s.record e).rxLen = s.rxLen := rfl
@[simp] theorem Block.record_stage : (s.record e).stage = s.stage := rfl
@[simp] theorem Block.record_rxIdx : (s.record e).rxIdx = s.rxIdx := rfl
@[simp] theorem Block.record_rxCks : (s.record e).rxCks = s.rxCks := rfl
@[simp] theorem Block.record_txState : (s.record e).txState = s.txState := rfl
@[simp] theorem Block.record_txSlave : (s.record e).txSlave = s.txSlave := rfl
@[simp] theorem Block.record_txCmd : (s.record e).txCmd = s.txCmd := rfl
@[simp] theorem Block.record_txLen : (s.record e).txLen = s.txLen := rfl
@[simp] theorem Block.record_txCks : (s.record e).txCks = s.txCks := rfl
@[simp] theorem Block.record_txData : (s.record e).txData = s.txData := rfl
@[simp] theorem Block.record_txPos : (s.record e).txPos = s.txPos := rfl
@[simp] theorem Block.record_hist : (s.record e).hist = s.hist ++ [e] := rfl
@[simp] theorem Block.record_rxIn : (s.record e).rxIn = s.rxIn := rfl
@[simp] theorem Block.record_requests : (s.record e).requests = s.requests := rfl
@[simp] theorem Block.record_sinkReady : (s.record e).sinkReady = s.sinkReady := rfl
@[simp] theorem Block.record_pktReady : (s.record e).pktReady = s.pktReady := rfl
@[simp] theorem Block.record_env : (s.record e).env = s.env := rfl
@[simp] theorem Block.record_turns : (s.record e).turns = s.turns := rfl
@[simp] theorem Block.record_cksOut : (s.record e).cksOut = s.cksOut := rfl
@[simp] theorem Block.record_draws : (s.record e).draws = s.draws := rfl

end Record

section Rxtake
variable (s : Block) (b : Byte)

@[simp] theorem Block.rxTake_rxState : (s.rxTake b).rxState = s.rxState := rfl
@[simp] theorem Block.rxTake_rxSlave : (s.rxTake b).rxSlave = s.rxSlave := rfl
@[simp] theorem Block.rxTake_rxCmd : (s.rxTake b).rxCmd = s.rxCmd := rfl
@[simp] theorem Block.rxTake_rxLen : (s.rxTake b).rxLen = s.rxLen := rfl
@[simp] theorem Block.rxTake_stage : (s.rxTake b).stage = s.stage := rfl
@[simp] theorem Block.rxTake_rxIdx : (s.rxTake b).rxIdx = s.rxIdx := rfl
@[simp] theorem Block.rxTake_rxCks : (s.rxTake b).rxCks = s.rxCks := rfl
@[simp] theorem Block.rxTake_txState : (s.rxTake b).txState = s.txState := rfl
@[simp] theorem Block.rxTake_txSlave : (s.rxTake b).txSlave = s.txSlave := rfl
@[simp] theorem Block.rxTake_txCmd : (s.rxTake b).txCmd = s.txCmd := rfl
@[simp] theorem Block.rxTake_txLen : (s.rxTake b).txLen = s.txLen := rfl
@[simp] theorem Block.rxTake_txCks : (s.rxTake b).txCks = s.txCks := rfl
@[simp] theorem Block.rxTake_txData : (s.rxTake b).txData = s.txData := rfl
@[simp] theorem Block.rxTake_txPos : (s.rxTake b).txPos = s.txPos := rfl
@[simp] theorem Block.rxTake_hist : (s.rxTake b).hist = s.hist ++ [.rxTake b] := rfl
@[simp] theorem Block.rxTake_rxIn : (s.rxTake b).rxIn = s.rxIn.tail := rfl
@[simp] theorem Block.rxTake_requests : (s.rxTake b).requests = s.requests := rfl
@[simp] theorem Block.rxTake_sinkReady : (s.rxTake b).sinkReady = s.sinkReady := rfl
@[simp] theorem Block.rxTake_pktReady : (s.rxTake b).pktReady = s.pktReady := rfl
@[simp] theorem Block.rxTake_env : (s.rxTake b).env = s.env := rfl
@[simp] theorem Block.rxTake_turns : (s.rxTake b).turns = s.turns := rfl
@[simp] theorem Block.rxTake_cksOut : (s.rxTake b).cksOut = s.cksOut := rfl
@[simp] theorem Block.rxTake_draws : (s.rxTake b).draws = s.draws := rfl

end Rxtake

section Txput
variable (s : Block) (b : Byte)

@[simp] theorem Block.txPut_rxState : (s.txPut b).rxState = s.rxState := rfl
@[simp] theorem Block.txPut_rxSlave : (s.txPut b).rxSlave = s.rxSlave := rfl
@[simp] theorem Block.txPut_rxCmd : (s.txPut b).rxCmd = s.rxCmd := rfl
@[simp] theorem Block.txPut_rxLen : (s.txPut b).rxLen = s.rxLen := rfl
@[simp] theorem Block.txPut_stage : (s.txPut b).stage = s.stage := rfl
@[simp] theorem Block.txPut_rxIdx : (s.txPut b).rxIdx = s.rxIdx := rfl
@[simp] theorem Block.txPut_rxCks : (s.txPut b).rxCks = s.rxCks := rfl
@[simp] theorem Block.txPut_txState : (s.txPut b).txState = s.txState := rfl
@[simp] theorem Block.txPut_txSlave : (s.txPut b).txSlave = s.txSlave := rfl
@[simp] theorem Block.txPut_txCmd : (s.txPut b).txCmd = s.txCmd := rfl
@[simp] theorem Block.txPut_txLen : (s.txPut b).txLen = s.txLen := rfl
@[simp] theorem Block.txPut_txCks : (s.txPut b).txCks = s.txCks := rfl
@[simp] theorem Block.txPut_txData : (s.txPut b).txData = s.txData := rfl
@[simp] theorem Block.txPut_txPos : (s.txPut b).txPos = s.txPos := rfl
@[simp] theorem Block.txPut_hist : (s.txPut b).hist = s.hist ++ [.txOut b] := rfl
@[simp] theorem Block.txPut_rxIn : (s.txPut b).rxIn = s.rxIn := rfl
@[simp] theorem Block.txPut_requests : (s.txPut b).requests = s.requests := rfl
@[simp] theorem Block.txPut_sinkReady : (s.txPut b).sinkReady = s.sinkReady := rfl
@[simp] theorem Block.txPut_pktReady : (s.txPut b).pktReady = s.pktReady := rfl
@[simp] theorem Block.txPut_env : (s.txPut b).env = s.env := rfl
@[simp] theorem Block.txPut_turns : (s.txPut b).turns = s.turns := rfl
@[simp] theorem Block.txPut_cksOut : (s.txPut b).cksOut = s.cksOut := rfl
@[simp] theorem Block.txPut_draws : (s.txPut b).draws = s.draws := rfl

end Txput

section Emit
variable (s : Block) (p : Packet)

@[simp] theorem Block.emit_rxState : (s.emit p).rxState = s.rxState := rfl
@[simp] theorem Block.emit_rxSlave : (s.emit p).rxSlave = s.rxSlave := rfl
@[simp] theorem Block.emit_rxCmd : (s.emit p).rxCmd = s.rxCmd := rfl
@[simp] theorem Block.emit_rxLen : (s.emit p).rxLen = s.rxLen := rfl
@[simp] theorem Block.emit_stage : (s.emit p).stage = s.stage := rfl
@[simp] theorem Block.emit_rxIdx : (s.emit p).rxIdx = s.rxIdx := rfl
@[simp] theorem Block.emit_rxCks : (s.emit p).rxCks = s.rxCks := rfl
@[simp] theorem Block.emit_txState : (s.emit p).txState = s.txState := rfl
@[simp] theorem Block.emit_txSlave : (s.emit p).txSlave = s.txSlave := rfl
@[simp] theorem Block.emit_txCmd : (s.emit p).txCmd = s.txCmd := rfl
@[simp] theorem Block.emit_txLen : (s.emit p).txLen = s.txLen := rfl
@[simp] theorem Block.emit_txCks : (s.emit p).txCks = s.txCks := rfl
@[simp] theorem Block.emit_txData : (s.emit p).txData = s.txData := rfl
@[simp] theorem Block.emit_txPos : (s.emit p).txPos = s.txPos := rfl
@[simp] theorem Block.emit_hist : (s.emit p).hist = s.hist ++ [.pktOut p] := rfl
@[simp] theorem Block.emit_rxIn : (s.emit p).rxIn = s.rxIn := rfl
@[simp] theorem Block.emit_requests : (s.emit p).requests = s.requests := rfl
@[simp] theorem Block.emit_sinkReady : (s.emit p).sinkReady = s.sinkReady := rfl
@[simp] theorem Block.emit_pktReady : (s.emit p).pktReady = s.pktReady := rfl
@[simp] theorem Block.emit_env : (s.emit p).env = s.env := rfl
@[simp] theorem Block.emit_turns : (s.emit p).turns = s.turns := rfl
@[simp] theorem Block.emit_cksOut : (s.emit p).cksOut = s.cksOut := rfl
@[simp] theorem Block.emit_draws : (s.emit p).draws = s.draws := rfl

end Emit

section Discard
variable (s : Block) (r : Reason)

@[simp] theorem Block.discard_rxState : (s.discard r).rxState = .seekStart := rfl
@[simp] theorem Block.discard_rxSlave : (s.discard r).rxSlave = s.rxSlave := rfl
@[simp] theorem Block.discard_rxCmd : (s.discard r).rxCmd = s.rxCmd := rfl
@[simp] theorem Block.discard_rxLen : (s.discard r).rxLen = s.rxLen := rfl
@[simp] theorem Block.discard_stage : (s.discard r).stage = s.stage := rfl
@[simp] theorem Block.discard_rxIdx : (s.discard r).rxIdx = s.rxIdx := rfl
@[simp] theorem Block.discard_rxCks : (s.discard r).rxCks = s.rxCks := rfl
@[simp] theorem Block.discard_txState : (s.discard r).txState = s.txState := rfl
@[simp] theorem Block.discard_txSlave : (s.discard r).txSlave = s.txSlave := rfl
@[simp] theorem Block.discard_txCmd : (s.discard r).txCmd = s.txCmd := rfl
@[simp] theorem Block.discard_txLen : (s.discard r).txLen = s.txLen := rfl
@[simp] theorem Block.discard_txCks : (s.discard r).txCks = s.txCks := rfl
@[simp] theorem Block.discard_txData : (s.discard r).txData = s.txData := rfl
@[simp] theorem Block.discard_txPos : (s.discard r).txPos = s.txPos := rfl
@[simp] theorem Block.discard_hist : (s.discard r).hist = s.hist ++ [.discard r] := rfl
@[simp] theorem Block.discard_rxIn : (s.discard r).rxIn = s.rxIn := rfl
@[simp] theorem Block.discard_requests : (s.discard r).requests = s.requests := rfl
@[simp] theorem Block.discard_sinkReady : (s.discard r).sinkReady = s.sinkReady := rfl
@[simp] theorem Block.discard_pktReady : (s.discard r).pktReady = s.pktReady := rfl
@[simp] theorem Block.discard_env : (s.discard r).env = s.env := rfl
@[simp] theorem Block.discard_turns : (s.discard r).turns = s.turns := rfl
@[simp] theorem Block.discard_cksOut : (s.discard r).cksOut = s.cksOut := rfl
@[simp] theorem Block.discard_draws : (s.discard r).draws = s.draws := rfl

end Discard

/-! ### A step's answer at a mode -/

@[simp] theorem withMode_next (m : AddrMode) (b : Block) :
    withMode m (.next b) = .next { toBlock := b, addrMode := m } := rfl
@[simp] theorem withMode_fault (m : AddrMode) (f : Fault) : withMode m (.fault f) = .fault f := rfl
@[simp] theorem withMode_refused (m : AddrMode) (r : Refusal) : withMode m (.refused r) = .refused r := rfl
@[simp] theorem State.construct_toBlock (m : AddrMode) : (State.construct m).toBlock = Block.initial := rfl
@[simp] theorem State.construct_addrMode (m : AddrMode) : (State.construct m).addrMode = m := rfl

/-! ### What depends on few fields only -/

@[simp] theorem Block.rxTake_rxPayload (s : Block) (b : Byte) : (s.rxTake b).rxPayload = s.rxPayload := rfl
@[simp] theorem Block.rxTake_verdict (m : AddrMode) (s : Block) (b e : Byte) : (s.rxTake b).verdict m e = s.verdict m e := rfl
@[simp] theorem Block.rxTake_candidate (s : Block) (b : Byte) : (s.rxTake b).candidate = s.candidate := rfl

/-- Taking the head byte of a stream leaves its rest. -/
theorem Block.rxTake_eq (s : Block) (b : Byte) (rest : List Byte) (h : s.rxIn = b :: rest) :
    s.rxTake b = { s with rxIn := rest, hist := s.hist ++ [.rxTake b] } := by
  simp [Block.rxTake, Block.record, h]

end Sys2Proof.Machine
end

