-- ==== Sys2Proof/Laws/Exec.lean ====
section
/-! SUPPORT. What the shared operations and the selection of the next operation can do, said once: later proofs cite
these and do not unfold the operations. -/

namespace Sys2Proof.Machine

/-- A byte step that is enabled takes its byte. -/
theorem onByte_enabled {st : RxState} {b : Byte} {k : Block → BlockOutcome} {s : Block}
    (hs : s.rxState = st) (hb : s.rxIn.head? = some b) : onByte st b k s = k (s.rxTake b) := by
  rw [onByte, if_pos ⟨hs, hb⟩]

/-- A byte step that is not enabled does not happen. -/
theorem onByte_disabled {st : RxState} {b : Byte} {k : Block → BlockOutcome} {s : Block}
    (h : ¬ (s.rxState = st ∧ s.rxIn.head? = some b)) : onByte st b k s = .next s := by
  rw [onByte, if_neg h, noStep]

/-- All that a byte step can come to. -/
theorem onByte_next {st : RxState} {b : Byte} {k : Block → BlockOutcome} {s t : Block}
    (h : onByte st b k s = .next t) :
    (s.rxState = st ∧ s.rxIn.head? = some b ∧ k (s.rxTake b) = .next t) ∨ t = s := by
  by_cases hg : s.rxState = st ∧ s.rxIn.head? = some b
  · rw [onByte_enabled hg.1 hg.2] at h
    exact .inl ⟨hg.1, hg.2, h⟩
  · rw [onByte_disabled hg] at h
    exact .inr (by cases h; rfl)

/-- Taking a discard is one event and a return to SEEK_START. -/
theorem Block.discard_eq (s : Block) (r : Reason) :
    s.discard r = { s with hist := s.hist ++ [.discard r], rxState := .seekStart } := rfl

/-- VALIDATE admits the candidate, or discards it. -/
theorem Block.judged_cases (m : AddrMode) (s : Block) (e : Byte) :
    (s.verdict m e = none ∧ s.judged m e = { s with rxState := .emit }) ∨
    ∃ r : Reason, s.verdict m e = some r ∧ s.judged m e = s.discard r := by
  cases h : s.verdict m e with
  | none => exact .inl ⟨rfl, by simp [Block.judged, h]⟩
  | some r => exact .inr ⟨r, rfl, by simp [Block.judged, h]⟩

/-- The checks pass exactly when all three do. -/
theorem verdict_eq_none {m : AddrMode} {slave cmd len e : Byte} {data : List Byte} {cand : Word} :
    verdict m slave cmd len data cand e = none ↔
      e = endByte ∧ addrOk m slave = true ∧ cks slave cmd len data = cand := by
  by_cases he : e = endByte
  · cases ha : addrOk m slave
    · simp [verdict, he, ha]
    · by_cases hc : cks slave cmd len data = cand <;> simp [verdict, cksCheck, he, ha, hc]
  · simp [verdict, he]

/-- The frame byte exists at every offset of the frame. -/
theorem Block.frameByte_isSome {s : Block} {p : Nat} (hp : p < 7 + s.txLen.toNat) :
    ∃ b : Byte, s.frameByte p = some b := by
  rw [← Option.isSome_iff_exists]
  unfold Block.frameByte
  grind

/-! ### The machine at its mode -/

/-- What the machine answers a step with: a block, at the machine's own mode. -/
theorem State.atMode_next {f : AddrMode → Block → BlockOutcome} {s t : State} :
    s.atMode f = .next t ↔ f s.addrMode s.toBlock = .next t.toBlock ∧ t.addrMode = s.addrMode := by
  unfold State.atMode
  cases f s.addrMode s.toBlock with
  | next b =>
    refine ⟨fun h => by cases h; exact ⟨rfl, rfl⟩, fun ⟨h1, h2⟩ => ?_⟩
    cases h1
    rw [← h2]
    rfl
  | fault r => exact ⟨(fun h => by cases h), fun h => by cases h.1⟩
  | refused r => exact ⟨(fun h => by cases h), fun h => by cases h.1⟩

/-- An operation of the machine is the step relation's operation at the machine's mode. -/
theorem exec_eq (i : Instr) (s : State) : exec i s = s.atMode fun m => execAt m i := by
  cases i <;> rfl

/-- A step of the machine is a step of the step relation at the machine's mode. -/
theorem step_eq (s : State) : step s = s.atMode stepAt := rfl

/-- Only RX.EOF looks at the mode (spec/10_state.md R14). -/
theorem execAt_mode {i : Instr} (hi : i ≠ .rxEof) (m m' : AddrMode) : execAt m i = execAt m' i := by
  cases i <;> first | rfl | exact absurd rfl hi

/-- What an operation of the machine can come to. -/
theorem exec_next {i : Instr} {s t : State} :
    exec i s = .next t ↔ execAt s.addrMode i s.toBlock = .next t.toBlock ∧ t.addrMode = s.addrMode := by
  rw [exec_eq, State.atMode_next]

/-! ### What each operation can come to: nothing moves, or its guard held and this is the next state -/

section Operations
variable {s t : Block}

theorem Block.execRxSof_next (h : Block.execRxSof s = .next t) :
    (s.rxState = .seekStart ∧ s.rxIn.head? = some startByte ∧
      t = { s.rxTake startByte with rxState := .hdrSlave }) ∨ t = s :=
  (onByte_next h).imp_left fun ⟨h1, h2, h3⟩ => ⟨h1, h2, by cases h3; rfl⟩

theorem Block.execRxSkip_next {b : Byte} (h : Block.execRxSkip b s = .next t) :
    (b ≠ startByte ∧ s.rxState = .seekStart ∧ s.rxIn.head? = some b ∧
      t = { s.rxTake b with rxState := .seekStart }) ∨ t = s := by
  rw [Block.execRxSkip] at h
  split at h
  · exact .inr (by cases h; rfl)
  · exact (onByte_next h).imp_left fun ⟨h1, h2, h3⟩ => ⟨‹_›, h1, h2, by cases h3; rfl⟩

theorem Block.execRxSlave_next {b : Byte} (h : Block.execRxSlave b s = .next t) :
    (s.rxState = .hdrSlave ∧ s.rxIn.head? = some b ∧
      t = { s.rxTake b with rxSlave := b, rxState := .hdrCmd }) ∨ t = s :=
  (onByte_next h).imp_left fun ⟨h1, h2, h3⟩ => ⟨h1, h2, by cases h3; rfl⟩

theorem Block.execRxCmd_next {b : Byte} (h : Block.execRxCmd b s = .next t) :
    (s.rxState = .hdrCmd ∧ s.rxIn.head? = some b ∧
      t = { s.rxTake b with rxCmd := b, rxState := .hdrLen }) ∨ t = s :=
  (onByte_next h).imp_left fun ⟨h1, h2, h3⟩ => ⟨h1, h2, by cases h3; rfl⟩

theorem Block.execRxLen_next {b : Byte} (h : Block.execRxLen b s = .next t) :
    (s.rxState = .hdrLen ∧ s.rxIn.head? = some b ∧
      t = { s.rxTake b with rxLen := b, rxIdx := 0, rxState := if b = 0 then .cksHi else .payload }) ∨ t = s :=
  (onByte_next h).imp_left fun ⟨h1, h2, h3⟩ => ⟨h1, h2, by cases h3; rfl⟩

theorem Block.execRxData_next {b : Byte} (h : Block.execRxData b s = .next t) :
    (s.rxState = .payload ∧ s.rxIn.head? = some b ∧ s.rxIdx < maxLen ∧
      t = { s.rxTake b with
        stage := Memory.write s.stage s.rxIdx b
        rxIdx := s.rxIdx + 1
        rxState := if s.rxIdx + 1 = s.rxLen.toNat then .cksHi else .payload }) ∨ t = s := by
  refine (onByte_next h).imp_left fun ⟨h1, h2, h3⟩ => ?_
  split at h3
  · exact ⟨h1, h2, ‹_›, by cases h3; rfl⟩
  · cases h3

theorem Block.execRxCksh_next {b : Byte} (h : Block.execRxCksh b s = .next t) :
    (s.rxState = .cksHi ∧ s.rxIn.head? = some b ∧
      t = { s.rxTake b with rxCks := setHi s.rxCks b, rxState := .cksLo }) ∨ t = s :=
  (onByte_next h).imp_left fun ⟨h1, h2, h3⟩ => ⟨h1, h2, by cases h3; rfl⟩

theorem Block.execRxCksl_next {b : Byte} (h : Block.execRxCksl b s = .next t) :
    (s.rxState = .cksLo ∧ s.rxIn.head? = some b ∧
      t = { s.rxTake b with rxCks := setLo s.rxCks b, rxState := .validate }) ∨ t = s :=
  (onByte_next h).imp_left fun ⟨h1, h2, h3⟩ => ⟨h1, h2, by cases h3; rfl⟩

theorem Block.execRxEof_next {m : AddrMode} (h : Block.execRxEof m s = .next t) :
    (s.rxState = .validate ∧ s.rxIn.head? = some endByte ∧ t = (s.rxTake endByte).judged m endByte) ∨ t = s :=
  (onByte_next h).imp_left fun ⟨h1, h2, h3⟩ => ⟨h1, h2, by cases h3; rfl⟩

/-- A wrong end byte is discarded by the checks of VALIDATE, at every mode. -/
theorem Block.judged_bad {e : Byte} (he : e ≠ endByte) (m : AddrMode) (s : Block) :
    s.judged m e = s.discard .endMismatch := by
  simp [Block.judged, Block.verdict, Sys2Proof.Machine.verdict, he]

theorem Block.execRxEofBad_next {e : Byte} (h : Block.execRxEofBad e s = .next t) :
    (e ≠ endByte ∧ s.rxState = .validate ∧ s.rxIn.head? = some e ∧
      t = (s.rxTake e).discard .endMismatch) ∨ t = s := by
  rw [Block.execRxEofBad] at h
  split at h
  · exact .inr (by cases h; rfl)
  · have he : e ≠ endByte := ‹_›
    refine (onByte_next h).imp_left fun ⟨h1, h2, h3⟩ => ⟨he, h1, h2, ?_⟩
    cases h3
    rfl

theorem Block.execRxAccept_next (h : Block.execRxAccept s = .next t) :
    (s.rxState = .emit ∧ s.pktReady = true ∧ t = { s.emit s.candidate with rxState := .seekStart }) ∨ t = s := by
  rw [Block.execRxAccept] at h
  split at h
  · rename_i hg
    exact .inl ⟨hg.1, hg.2, by cases h; rfl⟩
  · exact .inr (by cases h; rfl)

theorem Block.execTxEnc_next {slave cmd : Byte} {data : List Byte} (h : Block.execTxEnc slave cmd data s = .next t) :
    (data.length ≤ maxLen ∧ s.txState = .idle ∧ (⟨slave, cmd, data⟩ : Request) ∈ s.requests ∧
      t = { s.record (.encAccept slave cmd data) with
        txSlave := slave
        txCmd := cmd
        txLen := lenByte data
        txData := Memory.load s.txData 0 data
        txCks := cks slave cmd (lenByte data) data
        txPos := 0
        txState := .send
        requests := s.requests.erase ⟨slave, cmd, data⟩ }) ∨ t = s := by
  rw [Block.execTxEnc] at h
  split at h
  · cases h
  · split at h
    · rename_i hg
      exact .inl ⟨by omega, hg.1, hg.2, by cases h; rfl⟩
    · exact .inr (by cases h; rfl)

theorem Block.execTxByte_next (h : Block.execTxByte s = .next t) :
    (∃ b : Byte, s.txState = .send ∧ s.sinkReady = true ∧ s.frameByte s.txPos = some b ∧
      t = { s.txPut b with
        txPos := s.txPos + 1
        txState := if s.txPos + 1 = 7 + s.txLen.toNat then .idle else .send }) ∨ t = s := by
  rw [Block.execTxByte] at h
  split at h
  · rename_i hg
    split at h
    · exact .inl ⟨_, hg.1, hg.2, ‹_›, by cases h; rfl⟩
    · cases h
  · exact .inr (by cases h; rfl)

theorem Block.execCks_next {slave cmd len : Byte} {data : List Byte} (h : Block.execCks slave cmd len data s = .next t) :
    t = { s with cksOut := s.cksOut ++ [.sum (cks slave cmd len data)] } := by
  rw [Block.execCks] at h
  split at h <;> cases h
  rfl

theorem Block.execCksCheck_next {slave cmd len : Byte} {data : List Byte} {cand : Word}
    (h : Block.execCksCheck slave cmd len data cand s = .next t) :
    t = { s with cksOut := s.cksOut ++ [.verdict (cksCheck slave cmd len data cand)] } := by
  rw [Block.execCksCheck] at h
  split at h <;> cases h
  rfl

end Operations

/-! ### The next operation -/

/-- The decoder's operation in EMIT. -/
theorem decoderOp_emit {s : Block} (h : s.rxState = .emit) :
    decoderOp s = if s.pktReady then some .rxAccept else none := by
  simp [decoderOp, h, decode, Except.toOption]

/-- The decoder's operation outside EMIT, with a byte at the head of the stream. -/
theorem decoderOp_byte {s : Block} {b : Byte} {rest : List Byte} (h : s.rxState ≠ .emit) (hin : s.rxIn = b :: rest) :
    decoderOp s = (decode (.byte s.rxState b)).toOption := by
  cases hs : s.rxState <;> simp_all [decoderOp]

/-- Outside EMIT the decoder has no operation on an empty stream. -/
theorem decoderOp_empty {s : Block} (h : s.rxState ≠ .emit) (hin : s.rxIn = []) : decoderOp s = none := by
  cases hs : s.rxState <;> simp_all [decoderOp]

/-- One step, for a listed turn. -/
theorem nextTurn_cons {s : Block} {t : Turn} {ts : List Turn} (h : s.turns = t :: ts) :
    nextTurn s = takeTurn t { s with turns := ts } := by
  simp [nextTurn, h]

/-- One step, with no turn listed. -/
theorem nextTurn_nil {s : Block} (h : s.turns = []) : nextTurn s = takeTurn (defaultTurn s) s := by
  simp [nextTurn, h]

end Sys2Proof.Machine
end

