-- ==== Sys2Proof/Laws/PerInstr.lean ====
section
/-! SUPPORT. Facts about every operation as syntax, one lemma per constructor. -/

namespace Sys2Proof.Laws.SelectorUnique

/-- No other well-formed operation has this one's selector (spec/30_encoding.md R49, R50). -/
def Statement (i : Instr) : Prop :=
  ∀ j : Instr, i.wellFormed = true → j.wellFormed = true → encode i = encode j → i = j

/-- The selector tells the constructor and its operands apart, but for the byte that has priority. -/
theorem of_encode {i j : Instr} (hi : i.wellFormed = true) (hj : j.wellFormed = true) (h : encode i = encode j) :
    i = j := by
  cases i <;> cases j <;> simp_all [encode, Instr.wellFormed]

theorem rxSof : Statement .rxSof := fun _ => of_encode
theorem rxSkip (b : Byte) : Statement (.rxSkip b) := fun _ => of_encode
theorem rxSlave (b : Byte) : Statement (.rxSlave b) := fun _ => of_encode
theorem rxCmd (b : Byte) : Statement (.rxCmd b) := fun _ => of_encode
theorem rxLen (b : Byte) : Statement (.rxLen b) := fun _ => of_encode
theorem rxData (b : Byte) : Statement (.rxData b) := fun _ => of_encode
theorem rxCksh (b : Byte) : Statement (.rxCksh b) := fun _ => of_encode
theorem rxCksl (b : Byte) : Statement (.rxCksl b) := fun _ => of_encode
theorem rxEof : Statement .rxEof := fun _ => of_encode
theorem rxEofBad (e : Byte) : Statement (.rxEofBad e) := fun _ => of_encode
theorem rxAccept : Statement .rxAccept := fun _ => of_encode
theorem txEnc (slave cmd : Byte) (data : List Byte) : Statement (.txEnc slave cmd data) := fun _ => of_encode
theorem txByte : Statement .txByte := fun _ => of_encode
theorem cks (slave cmd len : Byte) (data : List Byte) : Statement (.cks slave cmd len data) := fun _ => of_encode
theorem cksCheck (slave cmd len : Byte) (data : List Byte) (cand : Word) :
    Statement (.cksCheck slave cmd len data cand) := fun _ => of_encode
theorem reset : Statement .reset := fun _ => of_encode

end Sys2Proof.Laws.SelectorUnique
end

