-- ==== Sys2Proof/Laws/Step.lean ====
section
/-! SUPPORT. What one step of the machine can come to, said once. -/

namespace Sys2Proof.Machine

/-- What a turn leaves of the state before any operation runs: the turn, and perhaps a move of the environment, is
used up; everything else stands. -/
theorem runOr_cases {o : Option Instr} {s : Block} {r : Turned} (h : runOr o s = r) :
    (∃ i, o = some i ∧ r = .run i s) ∨ (o = none ∧ r = .moved s) := by
  cases o with
  | none => exact .inr ⟨rfl, h.symm⟩
  | some i => exact .inl ⟨i, rfl, h.symm⟩

/-- All that a move of the environment can come to. -/
inductive EnvEffect (s : Block) : Turned → Prop
  | rx (bs : List Byte) (rest : List EnvMove) : s.env = .rx bs :: rest →
      EnvEffect s (.moved { s with env := rest, rxIn := s.rxIn ++ bs })
  | enc (r : Request) (rest : List EnvMove) : s.env = .enc r :: rest → r.data.length ≤ 255 →
      EnvEffect s (.moved { s with env := rest, requests := s.requests ++ [r] })
  | sink (x : Bool) (rest : List EnvMove) : s.env = .sink x :: rest →
      EnvEffect s (.moved { s with env := rest, sinkReady := x })
  | pkt (x : Bool) (rest : List EnvMove) : s.env = .pkt x :: rest →
      EnvEffect s (.moved { s with env := rest, pktReady := x })
  | run (m : EnvMove) (i : Instr) (rest : List EnvMove) : s.env = m :: rest →
      isDecoderOp i = false → isEncoderOp i = false → i.wellFormed = true →
      EnvEffect s (.run i { s with env := rest })
  | none : s.env = [] → EnvEffect s (.moved s)
  | rejected (r : Refusal) (m : EnvMove) (rest : List EnvMove) : s.env = m :: rest → EnvEffect s (.rejected r)

theorem envTurn_effect (s : Block) : EnvEffect s (envTurn s) := by
  unfold envTurn
  cases he : s.env with
  | nil => exact .none he
  | cons m rest =>
    cases m with
    | rx bs => exact .rx bs rest he
    | enc r =>
      simp only [envMove]
      split
      · exact .enc r rest he ‹_›
      · exact .rejected _ _ rest he
    | sink x => exact .sink x rest he
    | pkt x => exact .pkt x rest he
    | reset => exact .run _ .reset rest he rfl rfl rfl
    | cks slave cmd len data =>
      simp only [envMove, atPort, decode]
      split <;> rename_i hd
      · split at hd <;> cases hd
        exact .run _ _ rest he rfl rfl (by simpa [Instr.wellFormed])
      all_goals (split at hd <;> cases hd)
      exact .rejected _ _ rest he
    | cksCheck slave cmd len data cand =>
      simp only [envMove, atPort, decode]
      split <;> rename_i hd
      · split at hd <;> cases hd
        exact .run _ _ rest he rfl rfl (by simpa [Instr.wellFormed])
      all_goals (split at hd <;> cases hd)
      exact .rejected _ _ rest he

/-- All that the next turn can come to, with the listed turn used up. -/
theorem nextTurn_effect (s : Block) :
    ∃ ts : List Turn, ts <:+ s.turns ∧
      ((∃ i, decoderOp s = some i ∧ nextTurn s = .run i { s with turns := ts }) ∨
       (∃ k i, encoderOp k s = some i ∧ nextTurn s = .run i { s with turns := ts }) ∨
       nextTurn s = .moved { s with turns := ts } ∨
       EnvEffect { s with turns := ts } (nextTurn s)) := by
  suffices h : ∀ (t : Turn) (ts : List Turn), 
      (∃ i, decoderOp s = some i ∧ takeTurn t { s with turns := ts } = .run i { s with turns := ts }) ∨
      (∃ k i, encoderOp k s = some i ∧ takeTurn t { s with turns := ts } = .run i { s with turns := ts }) ∨
      takeTurn t { s with turns := ts } = .moved { s with turns := ts } ∨
      EnvEffect { s with turns := ts } (takeTurn t { s with turns := ts }) by
    cases ht : s.turns with
    | nil =>
      refine ⟨[], List.suffix_refl _, ?_⟩
      rw [nextTurn_nil ht]
      have hs : s = { s with turns := [] } := by rw [← ht]
      have := h (defaultTurn s) []
      rwa [← hs] at this ⊢
    | cons t ts =>
      refine ⟨ts, List.suffix_cons _ _, ?_⟩
      rw [nextTurn_cons ht]
      exact h t ts
  intro t ts
  cases t with
  | decoder =>
    rcases runOr_cases (o := decoderOp { s with turns := ts }) rfl with ⟨i, h1, h2⟩ | ⟨_, h2⟩
    · exact .inl ⟨i, h1, h2⟩
    · exact .inr (.inr (.inl h2))
  | encoder k =>
    rcases runOr_cases (o := encoderOp k { s with turns := ts }) rfl with ⟨i, h1, h2⟩ | ⟨_, h2⟩
    · exact .inr (.inl ⟨k, i, h1, h2⟩)
    · exact .inr (.inr (.inl h2))
  | environment => exact .inr (.inr (.inr (envTurn_effect _)))

/-- One step of the step relation: an operation runs, or nothing but the turns moves, or the environment moves. -/
theorem stepAt_next {m : AddrMode} {s t : Block} (h : stepAt m s = .next t) :
    ∃ (ts : List Turn) (es : List EnvMove),
      (∃ i : Instr, execAt m i { s with turns := ts, env := es } = .next t) ∨
      t = { s with turns := ts, env := es } ∨
      (∃ bs : List Byte, s.env = .rx bs :: es ∧ t = { s with turns := ts, env := es, rxIn := s.rxIn ++ bs }) ∨
      (∃ r : Request, r.data.length ≤ 255 ∧
        t = { s with turns := ts, env := es, requests := s.requests ++ [r] }) ∨
      (∃ x : Bool, t = { s with turns := ts, env := es, sinkReady := x }) ∨
      (∃ x : Bool, t = { s with turns := ts, env := es, pktReady := x }) := by
  obtain ⟨ts, -, h'⟩ := nextTurn_effect s
  rw [stepAt] at h
  rcases h' with ⟨i, -, e⟩ | ⟨k, i, -, e⟩ | e | e
  · rw [e] at h
    exact ⟨ts, s.env, .inl ⟨i, h⟩⟩
  · rw [e] at h
    exact ⟨ts, s.env, .inl ⟨i, h⟩⟩
  · rw [e] at h
    exact ⟨ts, s.env, .inr (.inl (by cases h; rfl))⟩
  · generalize nextTurn s = r at h e
    cases e with
    | rx bs rest he => exact ⟨ts, rest, .inr (.inr (.inl ⟨bs, he, by cases h; rfl⟩))⟩
    | enc r rest he hr => exact ⟨ts, rest, .inr (.inr (.inr (.inl ⟨r, hr, by cases h; rfl⟩)))⟩
    | sink x rest he => exact ⟨ts, rest, .inr (.inr (.inr (.inr (.inl ⟨x, by cases h; rfl⟩))))⟩
    | pkt x rest he => exact ⟨ts, rest, .inr (.inr (.inr (.inr (.inr ⟨x, by cases h; rfl⟩))))⟩
    | run m i rest he => exact ⟨ts, rest, .inl ⟨i, h⟩⟩
    | none he => exact ⟨ts, s.env, .inr (.inl (by cases h; rfl))⟩
    | rejected r m rest he => cases h

/-- One step of the machine, in the same words. -/
theorem step_next {s t : State} (h : step s = .next t) :
    t.addrMode = s.addrMode ∧ ∃ (ts : List Turn) (es : List EnvMove),
      (∃ i : Instr, exec i { s with turns := ts, env := es } = .next t) ∨
      t = { s with turns := ts, env := es } ∨
      (∃ bs : List Byte, s.env = .rx bs :: es ∧ t = { s with turns := ts, env := es, rxIn := s.rxIn ++ bs }) ∨
      (∃ r : Request, r.data.length ≤ 255 ∧
        t = { s with turns := ts, env := es, requests := s.requests ++ [r] }) ∨
      (∃ x : Bool, t = { s with turns := ts, env := es, sinkReady := x }) ∨
      (∃ x : Bool, t = { s with turns := ts, env := es, pktReady := x }) := by
  obtain ⟨h, hm⟩ := State.atMode_next.1 h
  obtain ⟨b, m⟩ := t
  cases hm
  obtain ⟨ts, es, ⟨i, he⟩ | rfl | ⟨bs, hb, rfl⟩ | ⟨r, hr, rfl⟩ | ⟨x, rfl⟩ | ⟨x, rfl⟩⟩ := stepAt_next h
  · exact ⟨rfl, ts, es, .inl ⟨i, exec_next.2 ⟨he, rfl⟩⟩⟩
  · exact ⟨rfl, ts, es, .inr (.inl rfl)⟩
  · exact ⟨rfl, ts, es, .inr (.inr (.inl ⟨bs, hb, rfl⟩))⟩
  · exact ⟨rfl, ts, es, .inr (.inr (.inr (.inl ⟨r, hr, rfl⟩)))⟩
  · exact ⟨rfl, ts, es, .inr (.inr (.inr (.inr (.inl ⟨x, rfl⟩))))⟩
  · exact ⟨rfl, ts, es, .inr (.inr (.inr (.inr (.inr ⟨x, rfl⟩))))⟩

end Sys2Proof.Machine
end

