-- ==== Sys2Proof/Tests/Slice0.lean ====
section
/-! SUPPORT. Tests against the spec's own tables and vectors (spec/95_test_vectors.md; the row is named at each), and
for each statement with hypotheses a witness that meets them. -/

namespace Sys2Proof.Tests

open Sys2Proof Sys2Proof.Machine

/-! ### Well-formedness: one ill-formed term for each check -/

theorem test_wf_skip_is_not_start : (Instr.rxSkip 0x3A).wellFormed = false := by decide
theorem test_wf_eof_bad_is_not_end : (Instr.rxEofBad 0x0D).wellFormed = false := by decide
theorem test_wf_request_256 : (Instr.txEnc 3 1 (List.replicate 256 0)).wellFormed = false := by decide +kernel
theorem test_wf_cks_length : (Instr.cks 3 1 2 [0x2A]).wellFormed = false := by decide
theorem test_wf_check_length : (Instr.cksCheck 3 1 0 [0x2A] 0x76).wellFormed = false := by decide

/-! ### Decoding: each row of the byte map of R49, with the bytes of D1's step trace, and each port of R50 -/

theorem test_decode_sof : decode (.byte .seekStart 0b00111010) = .ok .rxSof := by decide
theorem test_decode_skip : decode (.byte .seekStart 0x55) = .ok (.rxSkip 0x55) := by decide
theorem test_decode_slave : decode (.byte .hdrSlave 0x03) = .ok (.rxSlave 0x03) := by decide
theorem test_decode_cmd : decode (.byte .hdrCmd 0x01) = .ok (.rxCmd 0x01) := by decide
theorem test_decode_len : decode (.byte .hdrLen 0x01) = .ok (.rxLen 0x01) := by decide
theorem test_decode_data : decode (.byte .payload 0x3A) = .ok (.rxData 0x3A) := by decide
theorem test_decode_cksh : decode (.byte .cksHi 0x00) = .ok (.rxCksh 0x00) := by decide
theorem test_decode_cksl : decode (.byte .cksLo 0x76) = .ok (.rxCksl 0x76) := by decide
theorem test_decode_eof : decode (.byte .validate 0b00001101) = .ok .rxEof := by decide
theorem test_decode_eof_bad : decode (.byte .validate 0x0E) = .ok (.rxEofBad 0x0E) := by decide
theorem test_decode_emit : decode (.byte .emit 0x3A) = .error .emitTakesNoByte := by decide
theorem test_decode_accept : decode .packetAccept = .ok .rxAccept := by decide
theorem test_decode_enc : decode (.encodeRequest 3 1 [0x2A]) = .ok (.txEnc 3 1 [0x2A]) := by decide
theorem test_decode_txbyte : decode .sinkReady = .ok .txByte := by decide
theorem test_decode_cks : decode (.checksumPort 3 1 1 [0x2A]) = .ok (.cks 3 1 1 [0x2A]) := by decide
theorem test_decode_check : decode (.checkPort 3 1 1 [0x2A] 0x76) = .ok (.cksCheck 3 1 1 [0x2A] 0x76) := by decide
theorem test_decode_reset : decode .resetPort = .ok .reset := by decide

/-! ### Checksum, frames and DECODE -/

/-- K1, K2, K7, K8, K12. -/
theorem test_cks_vectors :
    cks 0x03 0x01 1 [0x2A] = 0x0076 ∧ cks 0x00 0x00 0 [] = 0x0047 ∧ cks 0xFF 0xFF 0 [] = 0x0245 ∧
    cks 0x05 0x02 2 [0x3A, 0x0D] = 0x0097 ∧ cks 0x03 0x02 3 [0x11, 0x3A, 0x22] = 0x00BC := by decide

/-- K3, K4, K5: the wrap. -/
theorem test_cks_wraps :
    cks 0xFF 0xFF 0xFF (List.replicate 255 0xFF) = 0x0145 ∧
    cks 0xFF 0x1F 0xFF (List.replicate 254 0xFF ++ [0x9A]) = 0x0000 ∧
    cks 0xFF 0x1F 0xFF (List.replicate 254 0xFF ++ [0x99]) = 0xFFFF := by decide +kernel

/-- V1 to V4. -/
theorem test_check_vectors :
    cksCheck 3 1 1 [0x2A] 0x0076 = true ∧ cksCheck 3 1 1 [0x2A] 0x7600 = false ∧
    cksCheck 3 1 1 [0x2A] 0x0077 = false ∧ cksCheck 3 1 1 [0x2A] 0x1076 = false := by decide

/-- E1, E2, E5, E8, E10. -/
theorem test_encode_vectors :
    encodeFrame 3 1 [0x2A] = [0x3A, 3, 1, 1, 0x2A, 0x00, 0x76, 0x0D] ∧
    encodeFrame 0 0 [] = [0x3A, 0, 0, 0, 0x00, 0x47, 0x0D] ∧
    encodeFrame 5 2 [0x3A, 0x0D] = [0x3A, 5, 2, 2, 0x3A, 0x0D, 0x00, 0x97, 0x0D] ∧
    encodeFrame 0x3A 1 [] = [0x3A, 0x3A, 1, 0, 0x00, 0x82, 0x0D] ∧
    encodeFrame 0xFF 0xFF [] = [0x3A, 0xFF, 0xFF, 0, 0x02, 0x45, 0x0D] := by decide

/-- D1, D2, D8, D9, D6: a packet, and each discard by its priority. -/
theorem test_decode_stream_outcomes :
    decodeStream (.addressed 3) [0x3A, 3, 1, 1, 0x2A, 0, 0x76, 0x0D] = ([.pkt ⟨3, 1, 1, [0x2A]⟩], .seekStart) ∧
    decodeStream (.addressed 4) [0x3A, 3, 1, 1, 0x2A, 0, 0x76, 0x0D] = ([.disc .addressMismatch], .seekStart) ∧
    decodeStream (.addressed 4) [0x3A, 3, 1, 1, 0x2A, 0, 0x77, 0x0E] = ([.disc .endMismatch], .seekStart) ∧
    decodeStream (.addressed 4) [0x3A, 3, 1, 1, 0x2A, 0, 0x77, 0x0D] = ([.disc .addressMismatch], .seekStart) ∧
    decodeStream (.addressed 3) [0x3A, 3, 1, 1, 0x2A, 0x76, 0, 0x0D] = ([.disc .checksumMismatch], .seekStart) := by
  decide

/-- D15, D16, D20, D21: skipped bytes, a frame left pending, no restart inside a frame or at a wrong end byte. -/
theorem test_decode_stream_sync :
    decodeStream (.addressed 3) [0x55, 0x0D, 0, 0xFF, 0x3A, 3, 1, 1, 0x2A, 0, 0x76, 0x0D] =
      ([.pkt ⟨3, 1, 1, [0x2A]⟩], .seekStart) ∧
    decodeStream (.addressed 3) [0x3A, 3, 1, 2, 0x2A, 0, 0x76, 0x0D] = ([], .pending) ∧
    decodeStream .promiscuous [0x3A, 0x3A, 0x3A, 3, 1, 1, 0x2A, 0, 0x76, 0x0D] =
      ([.disc .checksumMismatch], .seekStart) ∧
    decodeStream (.addressed 3) [0x3A, 3, 1, 1, 0x2A, 0, 0x76, 0x3A, 0x3A, 3, 2, 2, 0x10, 0x20, 0, 0x7E, 0x0D] =
      ([.disc .endMismatch, .pkt ⟨3, 2, 2, [0x10, 0x20]⟩], .seekStart) := by decide

/-! ### One step of each operation, on states along D1's step trace -/

/-- The state after a step; the state before it where the step stops. -/
def after (i : Instr) (s : State) : State :=
  match exec i s with
  | .next t => t
  | _ => s

/-- A node with address 3 part-way through the frame `3A 03 01 01 2A 00 76 0D`: the registers as at its end byte, with
`rx_state`, `rx_idx` and the stream as given. -/
def receiving (st : RxState) (idx : Nat) (stream : List Byte) : State :=
  { State.construct (.addressed 3) with
    rxState := st, rxSlave := 3, rxCmd := 1, rxLen := 1, stage := [(0, 0x2A)], rxIdx := idx, rxCks := 0x0076
    rxIn := stream }

/-- The encoder with E1 latched and `tx_pos` as given. -/
def sending (pos : Nat) : State :=
  { State.construct (.addressed 3) with
    txState := .send, txSlave := 3, txCmd := 1, txLen := 1, txCks := 0x0076, txData := [(0, 0x2A)], txPos := pos }

/-- The encoder idle with two requests presented (P6). -/
def asked : State :=
  { State.construct (.addressed 3) with requests := [⟨3, 1, [0x2A]⟩, ⟨3, 2, [0x10, 0x20]⟩] }

theorem test_sof : (after .rxSof (receiving .seekStart 0 [0x3A, 3])).rxState = .hdrSlave ∧
    (after .rxSof (receiving .seekStart 0 [0x3A, 3])).rxIn = [3] := by decide
theorem test_skip : (after (.rxSkip 0x55) (receiving .seekStart 0 [0x55])).rxState = .seekStart ∧
    (after (.rxSkip 0x55) (receiving .seekStart 0 [0x55])).hist = [.reset, .rxTake 0x55] := by decide
theorem test_slave : (after (.rxSlave 7) (receiving .hdrSlave 0 [7])).rxSlave = 7 ∧
    (after (.rxSlave 7) (receiving .hdrSlave 0 [7])).rxState = .hdrCmd := by decide
theorem test_cmd_reserved : (after (.rxCmd 0x20) (receiving .hdrCmd 0 [0x20])).rxCmd = 0x20 := by decide
theorem test_len_zero : (after (.rxLen 0) (receiving .hdrLen 1 [0])).rxState = .cksHi ∧
    (after (.rxLen 0) (receiving .hdrLen 1 [0])).rxIdx = 0 := by decide
theorem test_len_one : (after (.rxLen 1) (receiving .hdrLen 1 [1])).rxState = .payload := by decide
theorem test_data_last : (after (.rxData 0x5B) (receiving .payload 0 [0x5B])).rxPayload = [0x5B] ∧
    (after (.rxData 0x5B) (receiving .payload 0 [0x5B])).rxState = .cksHi := by decide
theorem test_data_more :
    (after (.rxData 9) { receiving .payload 0 [9] with rxLen := 2 }).rxState = .payload := by decide
theorem test_cksh_keeps_low : (after (.rxCksh 0xAB) (receiving .cksHi 1 [0xAB])).rxCks = 0xAB76 := by decide
theorem test_cksl_keeps_high :
    (after (.rxCksl 0xCD) { receiving .cksLo 1 [0xCD] with rxCks := 0xAB76 }).rxCks = 0xABCD := by decide
theorem test_eof_presents :
    (after .rxEof (receiving .validate 1 [0x0D])).presented = some ⟨3, 1, 1, [0x2A]⟩ := by decide
theorem test_eof_discards :
    (after .rxEof { receiving .validate 1 [0x0D] with rxCks := 0x0077 }).hist =
      [.reset, .rxTake 0x0D, .discard .checksumMismatch] := by decide
theorem test_eof_bad : (after (.rxEofBad 0x3A) (receiving .validate 1 [0x3A, 3])).rxState = .seekStart ∧
    (after (.rxEofBad 0x3A) (receiving .validate 1 [0x3A, 3])).rxIn = [3] := by decide
theorem test_accept : (after .rxAccept (receiving .emit 1 [5])).hist = [.reset, .pktOut ⟨3, 1, 1, [0x2A]⟩] ∧
    (after .rxAccept (receiving .emit 1 [5])).rxIn = [5] := by decide
/-- R60's example. -/
theorem test_enc_latches :
    (after (.txEnc 3 1 [0x2A]) asked).txCks = 0x0076 ∧ (after (.txEnc 3 1 [0x2A]) asked).txPayload = [0x2A] ∧
    (after (.txEnc 3 1 [0x2A]) asked).requests = [⟨3, 2, [0x10, 0x20]⟩] := by decide
/-- R63's example: the eight bytes, each from its own position. -/
theorem test_byte_frame :
    (List.range 8).map (fun p => wireBytes (after .txByte (sending p)).hist) =
      [[0x3A], [3], [1], [1], [0x2A], [0x00], [0x76], [0x0D]] := by decide
theorem test_byte_last : (after .txByte (sending 7)).txState = .idle ∧ (after .txByte (sending 7)).txPos = 8 ∧
    (after .txByte (sending 6)).txState = .send := by decide
theorem test_cks_port : (after (.cks 3 1 1 [0x2A]) asked).cksOut = [.sum 0x0076] := by decide
theorem test_check_port : (after (.cksCheck 3 1 1 [0x2A] 0x0077) asked).cksOut = [.verdict false] := by decide
/-- L2.4 R1: a frame is abandoned with no `Discard`. -/
theorem test_reset_mid_frame : (after .reset (receiving .cksHi 1 [0, 0x76])).rxState = .seekStart ∧
    (after .reset (receiving .cksHi 1 [0, 0x76])).hist = [.reset, .reset] ∧
    (after .reset (receiving .cksHi 1 [0, 0x76])).rxIn = [0, 0x76] := by decide
/-- L2.4 R3. -/
theorem test_reset_in_send : (after .reset (sending 3)).txState = .idle := by decide

/-- The host's words for the two rows with fixed bits, run as the first step after reset. -/
theorem test_table_words :
    decodeTableWord 8 0x3A = some .rxSof ∧ decodeTableWord 8 0x0D = some .rxEof ∧
    step (State.reset.withFetchWord 8 0x3A) = exec .rxSof { State.reset with rxIn := [0x3A] } ∧
    step (State.reset.withFetchWord 8 0x0D) = exec .rxEof { State.reset with rxState := .validate, rxIn := [0x0D] } :=
  ⟨by decide, by decide, rfl, rfl⟩

/-! ### Witnesses: a state and operands that meet the hypotheses of each statement together -/

theorem receiving_inv : Inv (receiving .payload 0 [0x2A]) ∧ Inv (receiving .validate 1 [0x0D]) ∧
    Inv (receiving .emit 1 []) := by
  refine ⟨?_, ?_, ?_⟩ <;> constructor <;> decide

theorem sending_inv : ∀ p < 8, Inv (sending p) := by
  intro p hp
  interval_cases p <;> constructor <;> decide

theorem asked_inv : Inv asked := by constructor <;> decide

theorem witness_DecodeOfEncode : (Instr.txEnc 3 1 [0x2A]).wellFormed = true := by decide
theorem witness_EncodeOfDecode : decode (.byte .validate 0x0E) = .ok (.rxEofBad 0x0E) := by decide

/-- A state with the invariant and a byte at the head of the stream, in each state of the byte map; SEEK_START and
VALIDATE with their special byte and with another, HDR_LEN with 0 and with 1. -/
theorem witness_ByteMapIsTotal :
    (receiving .emit 1 []).pktReady = true ∧
    ∀ x ∈ ([(.seekStart, 0, 0x3A), (.seekStart, 0, 0x39), (.hdrSlave, 0, 3), (.hdrCmd, 0, 1), (.hdrLen, 0, 0),
        (.hdrLen, 0, 1), (.payload, 0, 0x2A), (.cksHi, 1, 0), (.cksLo, 1, 0x76), (.validate, 1, 0x0D),
        (.validate, 1, 0x0E)] : List (RxState × Nat × Byte)),
      Inv (receiving x.1 x.2.1 [x.2.2]) ∧ x.1 ≠ .emit := by
  refine ⟨by decide, fun x hx => ?_⟩
  fin_cases hx <;> exact ⟨by constructor <;> decide, by decide⟩

theorem witness_SeekStartStep : (receiving .seekStart 0 [0x3A]).rxState = .seekStart ∧
    (receiving .seekStart 0 [0x3A]).rxIn = 0x3A :: [] ∧ (receiving .seekStart 0 [0x0D]).rxIn = 0x0D :: [] := by decide
theorem witness_HeaderSteps : ∀ st ∈ [RxState.hdrSlave, .hdrCmd, .hdrLen],
    (receiving st 0 [0]).rxState = st ∧ (receiving st 0 [0]).rxIn = 0 :: [] ∧
    (receiving st 0 [0xFF]).rxIn = 0xFF :: [] := by decide
theorem witness_PayloadStep : Inv (receiving .payload 0 [0x2A]) ∧ (receiving .payload 0 [0x2A]).rxState = .payload ∧
    (receiving .payload 0 [0x2A]).rxIn = 0x2A :: [] := ⟨receiving_inv.1, by decide, by decide⟩

/-- The last cell: a full-length frame at its last payload byte. -/
theorem witness_PayloadStep_last :
    Inv { receiving .payload 254 [0x2A] with rxLen := 0xFF } := by constructor <;> decide

theorem witness_ChecksumByteSteps : ∀ st ∈ [RxState.cksHi, .cksLo],
    (receiving st 1 [0]).rxState = st ∧ (receiving st 1 [0]).rxIn = 0 :: [] := by decide

theorem witness_CandidateChecksumAssembled : (receiving .cksHi 1 [0xFF, 0, 0x0D]).rxState = .cksHi ∧
    (receiving .cksHi 1 [0xFF, 0, 0x0D]).rxIn = 0xFF :: 0 :: [0x0D] := by decide

/-- The argument decides: the same block at a frame's end, at two modes. -/
theorem witness_AddrModeNeverChanges_argument :
    (∃ t : Block, Host.Core.run (coreAt .promiscuous) 1 (receiving .validate 1 [0x0D]).toBlock = .next t ∧
      t.rxState = .emit) ∧
    (∃ t : Block, Host.Core.run (coreAt (.addressed 4)) 1 (receiving .validate 1 [0x0D]).toBlock = .next t ∧
      t.rxState = .seekStart) := ⟨⟨_, rfl, by decide⟩, ⟨_, rfl, by decide⟩⟩

/-- Each verdict of VALIDATE has a state: admitted, wrong end, wrong address, wrong checksum. -/
theorem witness_ValidateStep :
    (receiving .validate 1 [0x0D]).verdict (.addressed 3) 0x0D = none ∧
    (receiving .validate 1 [0x0E]).verdict (.addressed 3) 0x0E = some .endMismatch ∧
    (receiving .validate 1 [0x0D]).verdict (.addressed 4) 0x0D = some .addressMismatch ∧
    ({ receiving .validate 1 [0x0D] with rxCks := 0x77 } : State).verdict (.addressed 3) 0x0D = some .checksumMismatch ∧
    (receiving .validate 1 [0x0D]).addrMode = .addressed 3 ∧
    (receiving .validate 1 [0x0D]).rxState = .validate ∧ (receiving .validate 1 [0x0D]).rxIn = 0x0D :: [] := by decide

theorem witness_AcceptStep : (receiving .emit 1 []).rxState = .emit ∧ (receiving .emit 1 []).pktReady = true ∧
    ({ receiving .emit 1 [] with pktReady := false } : State).pktReady = false := by decide
theorem witness_EncodeAccept : Inv asked ∧ asked.txState = .idle ∧ (⟨3, 1, [0x2A]⟩ : Request) ∈ asked.requests :=
  ⟨asked_inv, by decide, by decide⟩

/-- The same with the longest data. -/
theorem witness_EncodeAccept_longest :
    Inv { State.construct .promiscuous with requests := [⟨3, 1, List.replicate 255 0⟩] } := by
  constructor <;> decide +kernel

theorem witness_RequestsWaitForIdle : (sending 0).txState = .send ∧ ([0x2A] : List Byte).length ≤ 255 ∧ Inv asked ∧
    asked.txState = .idle ∧ (⟨3, 2, [0x10, 0x20]⟩ : Request) ∈ asked.requests :=
  ⟨by decide, by decide, asked_inv, by decide, by decide⟩
theorem witness_LongRequestRefused : 255 < (List.replicate 256 (0 : Byte)).length := by decide +kernel

/-- Every position of a frame with one payload byte: 0 to 3, 4 (the first and last payload byte), and the checksum and
end positions 5, 6 and 7. -/
theorem witness_TransmitByte : ∀ p < 8, (sending p).txState = .send ∧ (sending p).sinkReady = true ∧
    (sending p).txPos < 7 + (sending p).txLen.toNat := by decide

theorem witness_StalledSinkHoldsByte :
    ({ sending 3 with sinkReady := false } : State).txState = .send ∧
    ({ sending 3 with sinkReady := false } : State).sinkReady = false := by decide
theorem witness_FrameBytesAreEncode : Inv (sending 7) ∧ (sending 7).txState = .send :=
  ⟨sending_inv 7 (by decide), by decide⟩
theorem witness_EncoderIgnoresAddrMode :
    isEncoderOp .txByte = true ∧ exec .txByte (sending 0) = .next (after .txByte (sending 0)) := ⟨by decide, rfl⟩
theorem witness_ChecksumFormula : ([0x2A] : List Byte).length = (1 : Byte).toNat ∧
    ([] : List Byte).length = (0 : Byte).toNat := by decide
theorem witness_ChecksumPortsAnswer : ([0x2A] : List Byte).length = (1 : Byte).toNat := by decide
theorem witness_WrongLengthRefused : ([0x2A] : List Byte).length ≠ (2 : Byte).toNat := by decide

/-- The wrap: the longest data, all bytes 0xFF, has the exact sum 65861. -/
theorem witness_ChecksumRange : (List.replicate 255 (0xFF : Byte)).length = (0xFF : Byte).toNat ∧
    65536 ≤ exactSum 0xFF 0xFF 0xFF (List.replicate 255 0xFF) ∧
    (List.replicate 253 (0xFF : Byte)).length = (0xFD : Byte).toNat ∧ (0xFD : Byte).toNat = 253 ∧
    (List.replicate 254 (0xFF : Byte)).length = (0xFE : Byte).toNat ∧
    exactSum 0xFF 0xBA 0xFE (List.replicate 254 0xFF) = 65536 ∧
    exactSum 0xFF 0xB9 0xFE (List.replicate 254 0xFF) = 65535 := by decide +kernel

theorem witness_ChecksumIsOrderBlind :
    (3 : Byte).toNat + (1 : Byte).toNat + (2 : Byte).toNat = (1 : Byte).toNat + (3 : Byte).toNat + (2 : Byte).toNat ∧
    ([0x10, 0x20] : List Byte).Perm [0x20, 0x10] := ⟨by decide, List.Perm.swap _ _ _⟩
theorem witness_SingleByteCorruptionCaught : cksCheck 3 1 1 [0x2A] 0x0076 = true ∧ (4 : Byte) ≠ 3 ∧ (2 : Byte) ≠ 1 ∧
    0 < ([0x2A] : List Byte).length ∧ ([0x2A] : List Byte)[0]? ≠ some 0x2B ∧ (0x0077 : Word) ≠ 0x0076 := by decide
theorem witness_RunningSumIsChecksum :
    ([0x0D, 3, 1, 1, 0x3A, 0x2A] : List Byte).Perm (0x3A :: 3 :: 1 :: 1 :: 0x0D :: [0x2A]) ∧
    (Grouping.plus (.plus (.byte 0x0D) (.plus (.byte 3) (.byte 1))) (.plus (.plus (.byte 1) (.byte 0x3A))
      (.byte 0x2A))).bytes.Perm (0x3A :: 3 :: 1 :: 1 :: 0x0D :: [0x2A]) := by decide
theorem witness_FrameLayout : ([] : List Byte).length ≤ 255 ∧ (List.replicate 255 (0 : Byte)).length ≤ 255 := by decide +kernel
theorem witness_DecodeEquations : (0x55 : Byte) ≠ 0x3A ∧ frame (.addressed 3) [3, 1, 1] = none ∧
    frame (.addressed 3) [3, 1, 1, 0x2A, 0, 0x76, 0x0D, 9] = some (.pkt ⟨3, 1, 1, [0x2A]⟩, [9]) ∧
    ([3, 1] : List Byte).length < 3 ∧ ([0x2A, 0, 0x76] : List Byte).length < (1 : Byte).toNat + 3 ∧
    ([0x2A] : List Byte).length = (1 : Byte).toNat := by decide
theorem witness_FrameRoundTrip : ([0x2A] : List Byte).length ≤ 255 ∧ addrOk (.addressed 3) 3 = true ∧
    ∀ b ∈ ([0x55, 0x0D] : List Byte), b ≠ 0x3A := by decide
theorem witness_ForeignFrameDiscarded : ([0x2A] : List Byte).length ≤ 255 ∧ (3 : Byte) ≠ 4 ∧
    ∀ b ∈ ([0x55] : List Byte), b ≠ 0x3A := by decide
theorem witness_WellDelimitedFramesKeepSync :
    ∀ f ∈ ([[0x3A, 3, 1, 1, 0x2A, 0, 0x76, 0x0E], [0x3A, 9, 9, 0, 9, 9, 9]] : List (List Byte)), wellDelimited f := by
  intro f hf
  fin_cases hf
  · exact ⟨by decide, 1, by decide, by decide⟩
  · exact ⟨by decide, 0, by decide, by decide⟩
theorem witness_ResetStep :
    decoderOp (after .reset (receiving .cksHi 1 [0x55])).toBlock = some (.rxSkip 0x55) ∧
    encoderOp 1 (after .reset asked).toBlock = some (.txEnc 3 2 [0x10, 0x20]) := ⟨rfl, rfl⟩
theorem witness_ResetDrawsInRange : exec .reset (sending 3) = .next (after .reset (sending 3)) := rfl
theorem witness_ResetAbandonsFrames :
    exec .reset (receiving .cksHi 1 [0, 0x76]) = .next (after .reset (receiving .cksHi 1 [0, 0x76])) ∧
    (receiving .cksHi 1 [0, 0x76]).rxIn = 0 :: [0x76] ∧ (receiving .cksHi 1 [0x3A]).rxIn = 0x3A :: [] ∧
    (receiving .cksHi 1 []).rxIn = [] ∧ (receiving .cksHi 1 []).requests = [] := ⟨rfl, rfl, rfl, rfl, rfl⟩
theorem witness_StepRunsSelectedByte :
    ({ receiving .payload 0 [0x2A] with turns := [.decoder] } : State).turns = .decoder :: [] ∧
    (receiving .payload 0 [0x2A]).turns = [] ∧ (receiving .payload 0 [0x2A]).rxIn = 0x2A :: [] ∧
    decode (.byte (receiving .payload 0 [0x2A]).rxState 0x2A) = .ok (.rxData 0x2A) := by decide
theorem witness_StepRunsPortOperation :
    (receiving .emit 1 []).turns = [] ∧ (receiving .emit 1 []).rxState = .emit ∧
    (receiving .emit 1 []).pktReady = true ∧ asked.turns = [] ∧ decoderOp asked.toBlock = none ∧
    asked.txState = .idle ∧ asked.requests[0]? = some ⟨3, 1, [0x2A]⟩ ∧
    asked.requests[1]? = some ⟨3, 2, [0x10, 0x20]⟩ ∧ decoderOp (sending 0).toBlock = none ∧
    (sending 0).txState = .send ∧ (sending 0).sinkReady = true := by decide

/-- One environment state for each move, each on the environment's turn. -/
theorem witness_EnvironmentMoves :
    ∀ m ∈ [EnvMove.rx [0x3A], .enc ⟨3, 1, [0x2A]⟩, .sink false, .pkt false, .reset, .cks 3 1 1 [0x2A],
        .cksCheck 3 1 1 [0x2A] 0x76],
      ({ asked with turns := [.environment], env := [m] } : State).turns = .environment :: [] ∧
      ({ asked with turns := [.environment], env := [m] } : State).env = m :: [] := by decide

theorem witness_DisabledOperationDoesNotMove : Instr.rxSof.wellFormed = true ∧ ¬ enabled .rxSof asked := by
  refine ⟨rfl, ?_⟩
  simp only [enabled]
  decide
theorem witness_EnabledOperationCompletes : Instr.txByte.wellFormed = true ∧ Inv (sending 0) ∧
    enabled .txByte (sending 0) := ⟨rfl, sending_inv 0 (by decide), rfl, rfl⟩
theorem witness_StuckMachineStays :
    asked.turns = [] ∧ asked.env = [] ∧ (receiving .emit 1 [5]).turns = [] ∧
    (if (receiving .payload 0 []).rxState = .emit then (receiving .payload 0 []).pktReady = false
      else (receiving .payload 0 []).rxIn = []) ∧
    (if (receiving .payload 0 []).txState = .idle then (receiving .payload 0 []).requests = []
      else (receiving .payload 0 []).sinkReady = false) := by decide
theorem witness_DecoderWaits :
    ((receiving .payload 0 []).rxState ≠ .emit ∧ (receiving .payload 0 []).rxIn = []) ∧
    (({ receiving .emit 1 [5] with pktReady := false } : State).rxState = .emit ∧
      ({ receiving .emit 1 [5] with pktReady := false } : State).pktReady = false) ∧
    ({ receiving .payload 0 [] with turns := [.decoder, .decoder] } : State).turns =
      List.replicate 2 .decoder ++ [] := by decide
theorem witness_StepKeepsInvariant : Inv (sending 7) ∧ step (sending 7) = .next (after .txByte (sending 7)) :=
  ⟨sending_inv 7 (by decide), rfl⟩
theorem witness_NoFaultUnderInvariant : Inv (receiving .payload 0 [0x2A]) := receiving_inv.1
theorem witness_OutOfRangeFormsFault :
    (receiving .payload 255 [1]).rxState = .payload ∧ (receiving .payload 255 [1]).rxIn = 1 :: [] ∧
    255 ≤ (receiving .payload 255 [1]).rxIdx ∧ (sending 8).txState = .send ∧ (sending 8).sinkReady = true ∧
    7 + (sending 8).txLen.toNat ≤ (sending 8).txPos := by decide
theorem witness_AddrModeNeverChanges : step (sending 0) = .next (after .txByte (sending 0)) := rfl
theorem witness_InputConsumedInOrder :
    step (receiving .payload 0 [0x2A]) = .next (after (.rxData 0x2A) (receiving .payload 0 [0x2A])) := rfl
theorem witness_EventsComeFromTheirOperations :
    exec .rxAccept (receiving .emit 1 []) = .next (after .rxAccept (receiving .emit 1 [])) := rfl
theorem witness_UnitsShareNoState : isDecoderOp .rxAccept = true ∧ isEncoderOp .txByte = true ∧
    exec .rxAccept (receiving .emit 1 []) = .next (after .rxAccept (receiving .emit 1 [])) := ⟨rfl, rfl, rfl⟩

/-- Both units enabled in one state. -/
theorem witness_UnitsCommute :
    isDecoderOp (.rxSkip 5) = true ∧ isEncoderOp .txByte = true ∧
    exec (.rxSkip 5) { sending 0 with rxIn := [5] } = .next (after (.rxSkip 5) { sending 0 with rxIn := [5] }) ∧
    exec .txByte { sending 0 with rxIn := [5] } = .next (after .txByte { sending 0 with rxIn := [5] }) :=
  ⟨rfl, rfl, rfl, rfl⟩

theorem witness_OnlyAdmittedPacketsLeave : Inv (receiving .emit 1 []) ∧ OnlyAdmitted (receiving .emit 1 []) ∧
    step (receiving .emit 1 []) = .next (after .rxAccept (receiving .emit 1 [])) :=
  ⟨receiving_inv.2.2, by simp [OnlyAdmitted, receiving, State.construct, Block.initial], rfl⟩

/-- E1 accepted and its first byte emitted: the rest is due. -/
theorem witness_WireIsAcceptedFrames :
    Inv (sending 1) ∧
    WireExact { sending 1 with hist := [.reset, .encAccept 3 1 [0x2A], .txOut 0x3A] } ∧
    step { sending 1 with hist := [.reset, .encAccept 3 1 [0x2A], .txOut 0x3A] } =
      .next (after .txByte { sending 1 with hist := [.reset, .encAccept 3 1 [0x2A], .txOut 0x3A] }) :=
  ⟨sending_inv 1 (by decide), by simp only [WireExact]; decide, rfl⟩

/-- The decoder before the end byte of D1. -/
theorem witness_DecoderComputesDecode :
    Inv (receiving .validate 1 [0x0D]) ∧
    DecoderExact { receiving .validate 1 [0x0D] with
      hist := .reset :: [0x3A, 3, 1, 1, 0x2A, 0, 0x76].map .rxTake } ∧
    step (receiving .validate 1 [0x0D]) = .next (after .rxEof (receiving .validate 1 [0x0D])) :=
  ⟨receiving_inv.2.1, ⟨[], by decide, by decide⟩, rfl⟩

/-- Two states that differ in every register a reset leaves unspecified. -/
theorem witness_StaleValuesNeverReachOutputs :
    let s := { State.construct (.addressed 3) with rxIn := [0x3A] }
    let t := { s with
      rxSlave := 1, rxCmd := 2, rxLen := 3, rxIdx := 4, rxCks := 5, stage := [(0, 6)], txSlave := 7, txCmd := 8,
      txLen := 9, txCks := 10, txPos := 11, txData := [(1, 12)] }
    Inv s ∧ Inv t ∧ Alike s t ∧ step s = .next (after .rxSof s) ∧ exec .reset s = .next (after .reset s) ∧
      exec .reset t = .next (after .reset t) := by
  refine ⟨by constructor <;> decide, by constructor <;> decide, ?_, rfl, rfl, rfl⟩
  constructor <;> decide

theorem witness_EncoderEmitsWholeFrame :
    let s := { asked with turns := List.replicate 9 (.encoder 0) }
    Inv s ∧ s.txState = .idle ∧ s.sinkReady = true ∧ s.requests = ⟨3, 1, [0x2A]⟩ :: [⟨3, 2, [0x10, 0x20]⟩] ∧
      s.turns = List.replicate (8 + ([0x2A] : List Byte).length) (.encoder 0) ++ [] :=
  ⟨by constructor <;> decide, by decide, by decide, by decide, by decide⟩

theorem witness_DecoderDeliversFrame :
    let s := { State.construct (.addressed 3) with
      rxIn := encodeFrame 3 1 [0x2A] ++ [9], turns := List.replicate 9 .decoder }
    Inv s ∧ s.rxState = .seekStart ∧ s.pktReady = true ∧ addrOk s.addrMode 3 = true ∧
      s.rxIn = encodeFrame 3 1 [0x2A] ++ [9] ∧
      s.turns = List.replicate (8 + ([0x2A] : List Byte).length) .decoder ++ [] :=
  ⟨by constructor <;> decide, by decide, by decide, by decide, by decide, by decide⟩

theorem witness_BoardAddressReadBack : sentinelLegal .promiscuous := trivial

end Sys2Proof.Tests
end

/-! ## An operation happens exactly when its guard holds, at the one mode the machine has (spec/00_scope.md R6, R10) -/

namespace Sys2Proof.Machine

/-! ### The byte steps -/

/-- VALIDATE's checks only add to the history. -/
theorem Block.judged_hist (m : AddrMode) (s : Block) (e : Byte) :
    ∃ es : List Event, (s.judged m e).hist = s.hist ++ es := by
  obtain ⟨-, h⟩ | ⟨r, -, h⟩ := s.judged_cases m e
  · exact ⟨[], by simp [h]⟩
  · exact ⟨[.discard r], by simp [h]⟩

/-- R49: an operation that a byte selects is the byte step of its own selector. Once the byte is taken it completes,
only adding to the history, provided that in PAYLOAD the cell `rx_idx` exists. Well-formedness keeps RX.SKIP and
RX.EOF_BAD off the byte that has priority. -/
theorem execAt_byte {i : Instr} {st : RxState} {b : Byte} (m : AddrMode) (hwf : i.wellFormed = true)
    (hsel : encode i = .byte st b) :
    ∃ k : Block → BlockOutcome, (∀ s : Block, execAt m i s = onByte st b k s) ∧
      ∀ s : Block, (st = .payload → s.rxIdx < maxLen) →
        ∃ (t : Block) (es : List Event), k s = .next t ∧ t.hist = s.hist ++ es := by
  unfold execAt
  cases i with
  | rxSof | rxSlave | rxCmd | rxLen | rxCksh | rxCksl =>
    cases hsel
    exact ⟨_, fun _ => rfl, fun _ _ => ⟨_, [], rfl, (List.append_nil _).symm⟩⟩
  | rxSkip =>
    cases hsel
    have hb : b ≠ startByte := by simpa [Instr.wellFormed] using hwf
    exact ⟨_, fun _ => if_neg hb, fun _ _ => ⟨_, [], rfl, (List.append_nil _).symm⟩⟩
  | rxData =>
    cases hsel
    exact ⟨_, fun _ => rfl, fun _ hidx => ⟨_, [], if_pos (hidx rfl), (List.append_nil _).symm⟩⟩
  | rxEof =>
    cases hsel
    refine ⟨_, fun _ => rfl, fun s _ => ?_⟩
    obtain ⟨es, hes⟩ := s.judged_hist m endByte
    exact ⟨_, es, rfl, hes⟩
  | rxEofBad =>
    cases hsel
    have he : b ≠ endByte := by simpa [Instr.wellFormed] using hwf
    exact ⟨_, fun _ => if_neg he, fun s _ => ⟨_, [.discard .endMismatch], rfl, s.discard_hist _⟩⟩
  | rxAccept | txEnc | txByte | cks | cksCheck | reset => cases hsel

/-! ### A guard that is false -/

/-- R10: a well-formed operation whose guard is false leaves the block as it is. -/
theorem execAt_disabled {i : Instr} {s : State} (hwf : i.wellFormed = true) (hen : ¬ enabled i s) :
    execAt s.addrMode i s.toBlock = .next s.toBlock := by
  cases i with
  | rxSof | rxSkip | rxSlave | rxCmd | rxLen | rxData | rxCksh | rxCksl | rxEof | rxEofBad =>
    obtain ⟨k, hk, -⟩ := execAt_byte s.addrMode hwf rfl
    rw [hk]
    exact onByte_disabled hen
  | rxAccept | txByte => exact if_neg hen
  | txEnc slave cmd data =>
    have hlen : ¬ maxLen < data.length := by simpa [Instr.wellFormed] using hwf
    rw [execAt, Block.execTxEnc, if_neg hlen]
    exact if_neg hen
  | cks | cksCheck | reset => exact absurd trivial hen

/-- Settles O39: at the machine's mode the block stays as it is, and so does the machine. -/
theorem disabledOperationDoesNotMove : Obligations.DisabledOperationDoesNotMove :=
  fun _ _ hwf hen => exec_next.2 ⟨execAt_disabled hwf hen, rfl⟩

/-! ### A guard that holds -/

/-- The answer `o` to a step from `s` is a next state whose history has grown by at least one event. -/
def Records (s : Block) (o : BlockOutcome) : Prop :=
  ∃ (t : Block) (e : Event) (es : List Event), o = .next t ∧ t.hist = s.hist ++ e :: es

/-- R20: in PAYLOAD the cell `rx_idx` exists. -/
theorem Inv.rxIdx_lt_maxLen {s : State} (hinv : Inv s) (hst : s.rxState = .payload) : s.rxIdx < maxLen := by
  have hidx := hinv.payload_idx hst
  have hlen := s.rxLen.isLt
  unfold maxLen
  omega

/-- R10, R28, R49: an enabled byte step completes and records the byte it takes. -/
theorem execAt_byte_records {i : Instr} {s : State} {st : RxState} {b : Byte} (hwf : i.wellFormed = true)
    (hinv : Inv s) (hsel : encode i = .byte st b) (hst : s.rxState = st) (hb : s.rxIn.head? = some b) :
    Records s.toBlock (execAt s.addrMode i s.toBlock) := by
  obtain ⟨k, hk, hnext⟩ := execAt_byte s.addrMode hwf hsel
  obtain ⟨t, es, ht, hhist⟩ := hnext (s.rxTake b) fun hp => hinv.rxIdx_lt_maxLen (hst.trans hp)
  exact ⟨t, .rxTake b, es, by rw [hk, onByte_enabled hst hb, ht], by simp [hhist]⟩

/-- R10, R28: an enabled operation of a unit, and RESET, completes and records an event. The invariant rules out the two
faults: RX.DATA has a cell to write and TX.BYTE a byte to send. -/
theorem execAt_records {i : Instr} {s : State} (hwf : i.wellFormed = true) (hinv : Inv s) (hen : enabled i s)
    (hi : isDecoderOp i = true ∨ isEncoderOp i = true ∨ i = .reset) :
    Records s.toBlock (execAt s.addrMode i s.toBlock) := by
  cases i with
  | rxSof | rxSkip | rxSlave | rxCmd | rxLen | rxData | rxCksh | rxCksl | rxEof | rxEofBad =>
    exact execAt_byte_records hwf hinv rfl hen.1 hen.2
  | rxAccept => exact ⟨_, _, _, if_pos hen, rfl⟩
  | txEnc slave cmd data =>
    have hlen : ¬ maxLen < data.length := by simpa [Instr.wellFormed] using hwf
    rw [execAt, Block.execTxEnc, if_neg hlen]
    exact ⟨_, _, _, if_pos hen, rfl⟩
  | txByte =>
    obtain ⟨hsend, hready⟩ := hen
    obtain ⟨b, hb⟩ := Block.frameByte_isSome (hinv.send_pos hsend)
    rw [execAt, Block.execTxByte, if_pos ⟨hsend, hready⟩, hb]
    exact ⟨_, _, _, rfl, rfl⟩
  | reset => exact ⟨_, _, _, rfl, rfl⟩
  | cks | cksCheck => simp [isDecoderOp, isEncoderOp] at hi

/-- R50, R52: a call of a checksum port with data of the right length completes and records nothing. -/
theorem execAt_checksumPort {i : Instr} (m : AddrMode) (s : Block) (hwf : i.wellFormed = true)
    (hi : ¬ (isDecoderOp i = true ∨ isEncoderOp i = true ∨ i = .reset)) :
    ∃ t : Block, execAt m i s = .next t ∧ t.hist = s.hist := by
  cases i with
  | cks | cksCheck => exact ⟨_, if_pos (of_decide_eq_true hwf), rfl⟩
  | _ => simp [isDecoderOp, isEncoderOp] at hi

/-- Settles O40: an operation of a unit, or RESET, records an event; what is left are the checksum ports. -/
theorem enabledOperationCompletes : Obligations.EnabledOperationCompletes := by
  intro i s hwf hinv hen
  by_cases hi : isDecoderOp i = true ∨ isEncoderOp i = true ∨ i = .reset
  · obtain ⟨t, e, es, ht, hhist⟩ := execAt_records hwf hinv hen hi
    exact ⟨⟨t, s.addrMode⟩, e :: es, exec_next.2 ⟨ht, rfl⟩, hhist, fun _ => List.cons_ne_nil e es⟩
  · obtain ⟨t, ht, hhist⟩ := execAt_checksumPort s.addrMode s.toBlock hwf hi
    exact ⟨⟨t, s.addrMode⟩, [], exec_next.2 ⟨ht, rfl⟩, by simpa using hhist, fun h => absurd h hi⟩

/-! ### Runs at one mode -/

section Run
variable {M : Host.Core} {s t : M.State} (n : Nat)

/-- A run whose first step answers a next state goes on from there. -/
theorem run_succ_next (h : M.step s = .next t) : M.run (n + 1) s = M.run n t := by
  rw [Host.Core.run, h]

/-- A run ends at its first fault. -/
theorem run_succ_fault {f : M.Fault} (h : M.step s = .fault f) : M.run (n + 1) s = .fault f := by
  rw [Host.Core.run, h]

/-- A run ends at its first refusal. -/
theorem run_succ_refused {r : M.Refusal} (h : M.step s = .refused r) : M.run (n + 1) s = .refused r := by
  rw [Host.Core.run, h]

end Run

/-- A step of the machine is the step relation's answer with the machine's mode beside it. -/
theorem core_step_eq (s : State) : core.step s = withMode s.addrMode (stepAt s.addrMode s.toBlock) := rfl

/-- R6: a run of the machine is the run of the step relation at the machine's mode, with that mode beside each block. -/
theorem run_eq_withMode (n : Nat) (s : State) :
    core.run n s = withMode s.addrMode ((coreAt s.addrMode).run n s.toBlock) := by
  induction n generalizing s with
  | zero => rfl
  | succ n ih =>
    have hstep := core_step_eq s
    cases hb : stepAt s.addrMode s.toBlock with
    | next b =>
      rw [hb] at hstep
      rw [run_succ_next n hstep, run_succ_next (M := coreAt s.addrMode) n hb]
      exact ih ⟨b, s.addrMode⟩
    | fault f =>
      rw [hb] at hstep
      rw [run_succ_fault n hstep, run_succ_fault (M := coreAt s.addrMode) n hb]
      rfl
    | refused r =>
      rw [hb] at hstep
      rw [run_succ_refused n hstep, run_succ_refused (M := coreAt s.addrMode) n hb]
      rfl

/-- Settles O47: steps, runs and operations are those of the step relation at the machine's mode, which only RX.EOF
reads. -/
theorem addrModeNeverChanges : Obligations.AddrModeNeverChanges :=
  ⟨fun _ _ h => (step_next h).1, run_eq_withMode, exec_eq, fun _ m m' b hi => congrFun (execAt_mode hi m m') b⟩

end Sys2Proof.Machine

/-! ## The state of the block: its invariant, its outputs, and what its events and outputs come from (spec/10_state.md) -/

namespace Sys2Proof.Machine

/-! ### The invariant and the frame of each unit -/

section InvariantFrames
variable {m : AddrMode} {s : Block}

/-- R93: the invariant reads nothing of the environment but the requests, so a legal request list is all it asks of it. -/
theorem Inv.environment (hinv : Inv ⟨s, m⟩) {requests : List Request} (hreq : ∀ r ∈ requests, r.data.length ≤ 255)
    {rxIn : List Byte} {sinkReady pktReady : Bool} {env : List EnvMove} {turns : List Turn}
    {cksOut : List CksResult} :
    Inv ⟨{ s with
      requests := requests, rxIn := rxIn, sinkReady := sinkReady, pktReady := pktReady, env := env, turns := turns,
      cksOut := cksOut }, m⟩ :=
  { hinv with requests_legal := hreq }

/-- R16, R20: up to the length byte of a frame the invariant says of the decoder only that its buffer and index are in
range, whatever the header registers hold. -/
theorem Inv.header (hinv : Inv ⟨s, m⟩) {st : RxState} (hst : st.code < 4) {slave cmd : Byte} {rxIn : List Byte}
    {hist : List Event} :
    Inv ⟨{ s with rxState := st, rxSlave := slave, rxCmd := cmd, rxIn := rxIn, hist := hist }, m⟩ :=
  { hinv with
    payload_idx := by rintro rfl; exact absurd hst (by decide)
    full_idx := by rintro (rfl | rfl | rfl | rfl) <;> exact absurd hst (by decide)
    emit_ok := by rintro rfl; exact absurd hst (by decide) }

/-- R20: with the whole payload in, the invariant asks for `rx_idx = rx_len` whichever checksum byte comes next. -/
theorem Inv.trailer (hinv : Inv ⟨s, m⟩) {st : RxState} (hst : st = .cksHi ∨ st = .cksLo ∨ st = .validate)
    (hfull : s.rxIdx = s.rxLen.toNat) {cks : Word} {rxIn : List Byte} {hist : List Event} :
    Inv ⟨{ s with rxState := st, rxCks := cks, rxIn := rxIn, hist := hist }, m⟩ :=
  { hinv with
    payload_idx := by rintro rfl; simp at hst
    full_idx := fun _ => hfull
    emit_ok := by rintro rfl; simp at hst }

end InvariantFrames

/-! ### Every operation keeps the invariant -/

/-- R60: the payload of the latch is the data loaded into it, as many bytes as its length byte says. -/
theorem Memory.slice_latched {mem : Memory} {data : List Byte} (hwf : Memory.wf mem = true)
    (hlen : data.length ≤ maxLen) :
    Memory.slice (Memory.load mem 0 data) (lenByte data).toNat = data := by
  rw [lenByte_toNat data hlen, Memory.slice_load hwf data hlen]

section InvariantSteps
variable {m : AddrMode} {s t : Block}

/-- R71: after the length byte `rx_idx` is 0, so the payload is either empty and complete or still to come. -/
theorem Inv.of_execRxLen {b : Byte} (hinv : Inv ⟨s, m⟩) (h : s.execRxLen b = .next t) : Inv ⟨t, m⟩ := by
  obtain ⟨-, -, rfl⟩ | rfl := Block.execRxLen_next h
  · by_cases hb : b = 0#8
    · subst hb
      exact { hinv with
        rxIdx_range := Nat.zero_le _, payload_idx := by simp, full_idx := fun _ => rfl, emit_ok := by simp }
    · have hpos : 0 < b.toNat := Nat.pos_of_ne_zero fun h0 => hb (BitVec.eq_of_toNat_eq h0)
      exact { hinv with
        rxIdx_range := Nat.zero_le _, payload_idx := fun _ => hpos, full_idx := by simp [hb], emit_ok := by simp [hb] }
  · exact hinv

/-- R72: a payload byte fills the cell `rx_idx`, and the payload is complete exactly when `rx_idx` reaches `rx_len`. -/
theorem Inv.of_execRxData {b : Byte} (hinv : Inv ⟨s, m⟩) (h : s.execRxData b = .next t) : Inv ⟨t, m⟩ := by
  obtain ⟨hst, -, hidx, rfl⟩ | rfl := Block.execRxData_next h
  · have hlt : s.rxIdx < s.rxLen.toNat := hinv.payload_idx hst
    have hwf := Memory.write_wf hinv.stage_wf hidx b
    by_cases hlast : s.rxIdx + 1 = s.rxLen.toNat
    · exact { hinv with
        stage_wf := hwf, rxIdx_range := hidx, payload_idx := by simp [hlast], full_idx := fun _ => hlast
        emit_ok := by simp [hlast] }
    · exact { hinv with
        stage_wf := hwf, rxIdx_range := hidx, payload_idx := fun _ => Nat.lt_of_le_of_ne hlt hlast
        full_idx := by simp [hlast], emit_ok := by simp [hlast] }
  · exact hinv

/-- R75: VALIDATE presents a candidate only if all its checks pass. -/
theorem Inv.of_execRxEof (hinv : Inv ⟨s, m⟩) (h : s.execRxEof m = .next t) : Inv ⟨t, m⟩ := by
  obtain ⟨hst, -, rfl⟩ | rfl := Block.execRxEof_next h
  · obtain ⟨hv, hj⟩ | ⟨r, -, hj⟩ := (s.rxTake endByte).judged_cases m endByte
    · rw [hj]
      exact { hinv with
        payload_idx := nofun, full_idx := fun _ => hinv.full_idx (by simp [hst]), emit_ok := fun _ => hv }
    · rw [hj]
      exact hinv.header (by decide)
  · exact hinv

/-- R60, R62: TX.ENC latches a request with its own checksum and starts at offset 0; the other requests stay legal. -/
theorem Inv.of_execTxEnc {slave cmd : Byte} {data : List Byte} (hinv : Inv ⟨s, m⟩)
    (h : s.execTxEnc slave cmd data = .next t) : Inv ⟨t, m⟩ := by
  obtain ⟨hlen, -, -, rfl⟩ | rfl := Block.execTxEnc_next h
  · exact { hinv with
      txData_wf := Memory.load_wf hinv.txData_wf 0 data (by omega)
      txPos_range := Nat.zero_le _
      send_pos := fun _ => by simp
      send_cks := fun _ => congrArg (cks slave cmd (lenByte data)) (Memory.slice_latched hinv.txData_wf hlen).symm
      requests_legal := fun r hr => hinv.requests_legal r (List.mem_of_mem_erase hr) }
  · exact hinv

/-- R63: TX.BYTE goes on to the next offset, and to IDLE after the frame's last byte. -/
theorem Inv.of_execTxByte (hinv : Inv ⟨s, m⟩) (h : s.execTxByte = .next t) : Inv ⟨t, m⟩ := by
  obtain ⟨b, hsend, -, -, rfl⟩ | rfl := Block.execTxByte_next h
  · have hpos : s.txPos < 7 + s.txLen.toNat := hinv.send_pos hsend
    have hlen := s.txLen.isLt
    have hrange : s.txPos + 1 ≤ 262 := by omega
    by_cases hlast : s.txPos + 1 = 7 + s.txLen.toNat
    · exact { hinv with txPos_range := hrange, send_pos := by simp [hlast], send_cks := by simp [hlast] }
    · exact { hinv with
        txPos_range := hrange, send_pos := fun _ => Nat.lt_of_le_of_ne hpos hlast
        send_cks := fun _ => hinv.send_cks hsend }
  · exact hinv

/-- R20, R26, R96: the free values a RESET draws are in range, and both units are idle. -/
theorem Inv.of_execReset (hinv : Inv ⟨s, m⟩) (h : s.execReset = .next t) : Inv ⟨t, m⟩ := by
  cases h
  exact {
    stage_wf := by simp [Memory.ofCells_wf]
    txData_wf := by simp [Memory.ofCells_wf]
    rxIdx_range := Fin.is_le _
    txPos_range := Fin.is_le _
    payload_idx := nofun
    full_idx := by simp
    emit_ok := nofun
    send_pos := nofun
    send_cks := nofun
    requests_legal := hinv.requests_legal }

/-- Every operation keeps the invariant: RX.SOF to RX.CMD, a discard and a hand-off stay outside the payload, RX.CKSH
and RX.CKSL have it whole, the checksum ports write nothing the invariant reads. -/
theorem Inv.of_execAt {i : Instr} (hinv : Inv ⟨s, m⟩) (h : execAt m i s = .next t) : Inv ⟨t, m⟩ := by
  cases i with
  | rxSof =>
    obtain ⟨-, -, rfl⟩ | rfl := Block.execRxSof_next h
    · exact hinv.header (by decide)
    · exact hinv
  | rxSkip b =>
    obtain ⟨-, -, -, rfl⟩ | rfl := Block.execRxSkip_next h
    · exact hinv.header (by decide)
    · exact hinv
  | rxSlave b =>
    obtain ⟨-, -, rfl⟩ | rfl := Block.execRxSlave_next h
    · exact hinv.header (by decide)
    · exact hinv
  | rxCmd b =>
    obtain ⟨-, -, rfl⟩ | rfl := Block.execRxCmd_next h
    · exact hinv.header (by decide)
    · exact hinv
  | rxLen b => exact hinv.of_execRxLen h
  | rxData b => exact hinv.of_execRxData h
  | rxCksh b =>
    obtain ⟨hst, -, rfl⟩ | rfl := Block.execRxCksh_next h
    · exact hinv.trailer (by simp) (hinv.full_idx (by simp [hst]))
    · exact hinv
  | rxCksl b =>
    obtain ⟨hst, -, rfl⟩ | rfl := Block.execRxCksl_next h
    · exact hinv.trailer (by simp) (hinv.full_idx (by simp [hst]))
    · exact hinv
  | rxEof => exact hinv.of_execRxEof h
  | rxEofBad e =>
    obtain ⟨-, -, -, rfl⟩ | rfl := Block.execRxEofBad_next h
    · exact hinv.header (by decide)
    · exact hinv
  | rxAccept =>
    obtain ⟨-, -, rfl⟩ | rfl := Block.execRxAccept_next h
    · exact hinv.header (by decide)
    · exact hinv
  | txEnc slave cmd data => exact hinv.of_execTxEnc h
  | txByte => exact hinv.of_execTxByte h
  | cks slave cmd len data =>
    cases Block.execCks_next h
    exact hinv.environment hinv.requests_legal
  | cksCheck slave cmd len data cand =>
    cases Block.execCksCheck_next h
    exact hinv.environment hinv.requests_legal
  | reset => exact hinv.of_execReset h

end InvariantSteps

/-- Settles O44: an operation keeps the invariant, and a move of the environment writes nothing it reads, but for a
request that is legal. -/
theorem stepKeepsInvariant : Obligations.StepKeepsInvariant := by
  intro s t hinv h
  obtain ⟨hmode, ts, es, h⟩ := step_next h
  have hturn : Inv { s with turns := ts, env := es } := hinv.environment hinv.requests_legal
  rcases h with ⟨i, hexec⟩ | rfl | ⟨bs, -, rfl⟩ | ⟨r, hr, rfl⟩ | ⟨x, rfl⟩ | ⟨x, rfl⟩
  · obtain ⟨hexec, -⟩ := exec_next.1 hexec
    have := hturn.of_execAt hexec
    rwa [← hmode] at this
  · exact hturn
  · exact hinv.environment hinv.requests_legal
  · refine hinv.environment fun q hq => ?_
    rcases List.mem_append.1 hq with hq | hq
    · exact hinv.requests_legal q hq
    · rwa [List.mem_singleton.1 hq]
  · exact hinv.environment hinv.requests_legal
  · exact hinv.environment hinv.requests_legal

/-! ### The state right after reset -/

/-- R96: the block right after reset has the invariant at every mode, whatever moves the environment has to come. -/
theorem Inv.ofProgram (m : AddrMode) (lines : List EnvMove) : Inv (State.ofProgram m lines) where
  stage_wf := Memory.wf_nil
  txData_wf := Memory.wf_nil
  rxIdx_range := Nat.zero_le _
  txPos_range := Nat.zero_le _
  payload_idx := nofun
  full_idx := by simp [State.ofProgram, Block.initial]
  emit_ok := nofun
  send_pos := nofun
  send_cks := nofun
  requests_legal := nofun

/-- Settles O43: the machine after reset is the one of an empty program, at the mode it was constructed with. -/
theorem invariantAtReset : Obligations.InvariantAtReset :=
  ⟨Inv.ofProgram Config.addrMode [], Inv.ofProgram⟩

/-- Settles O33: the free values are drawn from their ranges, and buffers built from cells are canonical. -/
theorem resetDrawsInRange : Obligations.ResetDrawsInRange := by
  intro s t h
  obtain ⟨h, -⟩ := exec_next.1 h
  obtain ⟨t, m⟩ := t
  cases h
  exact ⟨Fin.is_le _, Fin.is_le _, by simp [Memory.ofCells_wf], by simp [Memory.ofCells_wf], rfl, rfl, rfl, rfl⟩

/-! ### Levels, stops and the board address -/

/-- R23: the packet output is the candidate frame's packet, in EMIT only. -/
theorem Block.presented_eq_some {s : Block} {p : Packet} :
    s.presented = some p ↔ s.rxState = .emit ∧ p = s.candidate := by
  by_cases hst : s.rxState = .emit <;> simp [Block.presented, hst, eq_comm]

/-- R23: outside EMIT no packet is presented. -/
theorem Block.presented_eq_none {s : Block} (h : s.rxState ≠ .emit) : s.presented = none := if_neg h

/-- Settles O12: each level is the test of a control state that R27 gives. -/
theorem levelOutputs : Obligations.LevelOutputs := by
  intro s
  refine ⟨?_, ?_, ?_, fun _ => Block.presented_eq_some⟩
  · simp [Block.pktValid]
  · simp [Block.rxInFrame]
  · simp [Block.txBusy]

/-- R63: FrameByte gives no byte from the frame's length on. -/
theorem Block.frameByte_eq_none {s : Block} {p : Nat} (hp : 7 + s.txLen.toNat ≤ p) : s.frameByte p = none := by
  simp (disch := omega) only [Block.frameByte, if_neg]

/-- Settles O46: the byte is there and its guard holds, but the cell, or the frame byte, does not exist. -/
theorem outOfRangeFormsFault : Obligations.OutOfRangeFormsFault := by
  intro s b rest
  constructor
  · intro hst hin hidx
    have hcell : ¬ s.rxIdx < maxLen := Nat.not_lt.2 hidx
    have hfault : s.execRxData b = .fault .stageIndex := by
      rw [Block.execRxData, onByte_enabled hst (by simp [hin])]
      exact if_neg hcell
    rw [exec_eq, State.atMode, execAt, hfault, withMode_fault]
  · intro hsend hready hpos
    have hfault : s.execTxByte = .fault .framePosition := by
      rw [Block.execTxByte, if_pos ⟨hsend, hready⟩, Block.frameByte_eq_none hpos]
    rw [exec_eq, State.atMode, execAt, hfault, withMode_fault]

/-- R15 under the sentinel reading: the mode of an address number is legal and reads back as the number. -/
theorem modeOfAddress_spec (a : Byte) : boardAddress (modeOfAddress a) = a ∧ sentinelLegal (modeOfAddress a) := by
  by_cases ha : a = Config.stateScreenValue
  · simp [modeOfAddress, boardAddress, sentinelLegal, ha]
  · simp [modeOfAddress, boardAddress, sentinelLegal, ha]

/-- R15 under the sentinel reading: a legal mode is the mode of its own address number. -/
theorem modeOfAddress_boardAddress {m : AddrMode} (hm : sentinelLegal m) : modeOfAddress (boardAddress m) = m := by
  cases m with
  | addressed a => exact if_neg hm
  | promiscuous => exact if_pos rfl

/-- Settles O59: reading the address back and taking the mode of an address number are inverse on the legal modes. -/
theorem boardAddressReadBack : Obligations.BoardAddressReadBack :=
  ⟨fun _ => rfl, rfl, modeOfAddress_spec, fun _ => modeOfAddress_boardAddress⟩

/-! ### Which operation records which event -/

/-- What it takes for operation `i`, run in state `s`, to record an event (R28, R83, R87). -/
def CanRecord (i : Instr) (s : Block) : Event → Prop
  | .rxTake b => ∃ st : RxState, encode i = .byte st b
  | .discard _ => i = .rxEof ∨ ∃ e : Byte, i = .rxEofBad e
  | .pktOut p => i = .rxAccept ∧ s.presented = some p
  | .encAccept slave cmd data => i = .txEnc slave cmd data
  | .txOut _ => i = .txByte
  | .reset => i = .reset

/-- From `s` to `t` operation `i` has added at most two events to the history, each one that it can record. -/
def EventsFrom (i : Instr) (s t : Block) : Prop :=
  ∃ es : List Event, t.hist = s.hist ++ es ∧ (∀ e ∈ es, CanRecord i s e) ∧ es.length ≤ 2

section Events
variable {i : Instr} {m : AddrMode} {s t : Block}

theorem EventsFrom.none (ht : t.hist = s.hist) : EventsFrom i s t := ⟨[], by simp [ht]⟩

theorem EventsFrom.one {e : Event} (ht : t.hist = s.hist ++ [e]) (he : CanRecord i s e) : EventsFrom i s t :=
  ⟨[e], by simp [ht, he]⟩

theorem EventsFrom.two {e e' : Event} (ht : t.hist = s.hist ++ [e] ++ [e']) (he : CanRecord i s e)
    (he' : CanRecord i s e') : EventsFrom i s t :=
  ⟨[e, e'], by simp [ht, he, he']⟩

theorem EventsFrom.taken {st : RxState} {b : Byte} (hsel : encode i = .byte st b)
    (ht : t.hist = s.hist ++ [.rxTake b] ∨ t = s) : EventsFrom i s t :=
  ht.elim (.one · ⟨st, hsel⟩) fun hs => .none (congrArg Block.hist hs)

/-- R28: a byte operation records the byte that selects it, VALIDATE's two also a discard; a hand-off, an accepted
request, a byte sent and a RESET are one event each; a checksum port records none (log 10). -/
theorem execAt_eventsFrom (h : execAt m i s = .next t) : EventsFrom i s t := by
  cases i with
  | rxSof => exact .taken rfl ((Block.execRxSof_next h).imp_left fun ⟨_, _, ht⟩ => congrArg Block.hist ht)
  | rxSkip b => exact .taken rfl ((Block.execRxSkip_next h).imp_left fun ⟨_, _, _, ht⟩ => congrArg Block.hist ht)
  | rxSlave b => exact .taken rfl ((Block.execRxSlave_next h).imp_left fun ⟨_, _, ht⟩ => congrArg Block.hist ht)
  | rxCmd b => exact .taken rfl ((Block.execRxCmd_next h).imp_left fun ⟨_, _, ht⟩ => congrArg Block.hist ht)
  | rxLen b => exact .taken rfl ((Block.execRxLen_next h).imp_left fun ⟨_, _, ht⟩ => congrArg Block.hist ht)
  | rxData b => exact .taken rfl ((Block.execRxData_next h).imp_left fun ⟨_, _, _, ht⟩ => congrArg Block.hist ht)
  | rxCksh b => exact .taken rfl ((Block.execRxCksh_next h).imp_left fun ⟨_, _, ht⟩ => congrArg Block.hist ht)
  | rxCksl b => exact .taken rfl ((Block.execRxCksl_next h).imp_left fun ⟨_, _, ht⟩ => congrArg Block.hist ht)
  | rxEof =>
    obtain ⟨-, -, rfl⟩ | rfl := Block.execRxEof_next h
    · obtain ⟨-, hj⟩ | ⟨r, -, hj⟩ := (s.rxTake endByte).judged_cases m endByte
      · exact .one (congrArg Block.hist hj) ⟨_, rfl⟩
      · exact .two (congrArg Block.hist hj) ⟨_, rfl⟩ (.inl rfl)
    · exact .none rfl
  | rxEofBad e =>
    obtain ⟨-, -, -, rfl⟩ | rfl := Block.execRxEofBad_next h
    · exact .two rfl ⟨_, rfl⟩ (.inr ⟨e, rfl⟩)
    · exact .none rfl
  | rxAccept =>
    obtain ⟨hst, -, rfl⟩ | rfl := Block.execRxAccept_next h
    · exact .one rfl ⟨rfl, Block.presented_eq_some.2 ⟨hst, rfl⟩⟩
    · exact .none rfl
  | txEnc slave cmd data =>
    obtain ⟨-, -, -, rfl⟩ | rfl := Block.execTxEnc_next h
    · exact .one rfl rfl
    · exact .none rfl
  | txByte =>
    obtain ⟨b, -, -, -, rfl⟩ | rfl := Block.execTxByte_next h
    · exact .one rfl rfl
    · exact .none rfl
  | cks slave cmd len data =>
    cases Block.execCks_next h
    exact .none rfl
  | cksCheck slave cmd len data cand =>
    cases Block.execCksCheck_next h
    exact .none rfl
  | reset =>
    cases h
    exact .one rfl rfl

end Events

/-- Settles O49: each event added is one that the operation can record. -/
theorem eventsComeFromTheirOperations : Obligations.EventsComeFromTheirOperations := by
  intro i s t h
  obtain ⟨es, hhist, hrec, hlen⟩ := execAt_eventsFrom (exec_next.1 h).1
  exact ⟨es, hhist, fun _ => hrec _, fun _ => hrec _, fun _ => hrec _, fun _ _ _ => hrec _, fun _ => hrec _, hrec _, hlen⟩

/-! ### What the observable frames determine -/

/-- R59: a frame determines the request it encodes. -/
theorem encodeFrame_inj {slave slave' cmd cmd' : Byte} {data data' : List Byte}
    (h : encodeFrame slave cmd data = encodeFrame slave' cmd' data') :
    slave = slave' ∧ cmd = cmd' ∧ data = data' := by
  have hlen : data.length = data'.length := by simpa [encodeFrame] using congrArg List.length h
  simp only [encodeFrame, List.cons_append, List.nil_append, List.cons.injEq] at h
  obtain ⟨-, hs, hc, -, h⟩ := h
  exact ⟨hs, hc, (List.append_inj h hlen).1⟩

/-- R43: the latch's length byte is the length of its payload. -/
theorem Block.lenByte_txPayload (s : Block) : lenByte s.txPayload = s.txLen := by
  simp [lenByte, Block.txPayload]

section FrameByte
variable (s : Block)

/-- R63: offsets 0 to 3 hold the header. -/
theorem Block.frameByte_header {p : Nat} (hp : p < 4) :
    s.frameByte p = [startByte, s.txSlave, s.txCmd, s.txLen][p]? := by
  interval_cases p <;> rfl

/-- R63: the next `tx_len` offsets hold the payload. -/
theorem Block.frameByte_payload {i : Nat} (hi : i < s.txLen.toNat) : s.frameByte (i + 4) = s.txPayload[i]? := by
  rw [Block.txPayload, Memory.getElem?_slice, if_pos hi]
  simp (disch := omega) only [Block.frameByte, if_neg, if_pos, Nat.add_sub_cancel]

/-- R63: then come the checksum and the end byte, and nothing after them. -/
theorem Block.frameByte_trailer (i : Nat) :
    s.frameByte (i + s.txLen.toNat + 4) = [hi s.txCks, lo s.txCks, endByte][i]? := by
  rcases i with _ | _ | _ | i <;> simp (disch := omega) only [Block.frameByte, if_neg, if_pos] <;> rfl

end FrameByte

/-- R63, R65: in SEND FrameByte reads off the frame of the latch, whose checksum the invariant gives. -/
theorem Block.frameByte_eq_txFrame {s : State} (hinv : Inv s) (hsend : s.txState = .send) (p : Nat) :
    s.frameByte p = s.txFrame[p]? := by
  have hcks := hinv.send_cks hsend
  have hn : s.txPayload.length = s.txLen.toNat := Memory.length_slice _ _
  simp only [Block.txFrame, encodeFrame, Block.lenByte_txPayload, ← hcks, List.append_assoc]
  rcases Nat.lt_or_ge p 4 with hp | hp
  · rw [List.getElem?_append_left hp, Block.frameByte_header _ hp]
  · obtain ⟨q, rfl⟩ := Nat.exists_eq_add_of_le' hp
    rw [List.getElem?_append_right hp]
    rcases Nat.lt_or_ge q s.txLen.toNat with hq | hq
    · rw [Block.frameByte_payload _ hq]
      exact (List.getElem?_append_left (hn ▸ hq)).symm
    · obtain ⟨k, rfl⟩ := Nat.exists_eq_add_of_le' hq
      rw [Block.frameByte_trailer, List.getElem?_append_right (hn ▸ hq)]
      simp [hn]

/-- R41: a start byte, a header, as many payload bytes as its length byte says and what follows them can be told apart
from their concatenation. -/
theorem trailer_inj {a b c l a' b' c' l' : Byte} {d d' e e' : List Byte} (hd : d.length = l.toNat)
    (hd' : d'.length = l'.toNat) (h : [a, b, c, l] ++ d ++ e = [a', b', c', l'] ++ d' ++ e') :
    b = b' ∧ c = c' ∧ l = l' ∧ d = d' ∧ e = e' := by
  simp only [List.cons_append, List.nil_append, List.cons.injEq] at h
  obtain ⟨-, hb, hc, rfl, h⟩ := h
  obtain ⟨hdd, hee⟩ := List.append_inj h (hd.trans hd'.symm)
  exact ⟨hb, hc, rfl, hdd, hee⟩

section Alike
variable {m : AddrMode} {s t : Block}

/-- In PAYLOAD alike states have the same `rx_len`, and the same `rx_idx`: the header is 4 bytes long. -/
theorem Alike.payload_registers (h : Alike ⟨s, m⟩ ⟨t, m⟩) (hst : s.rxState = .payload) :
    s.rxLen = t.rxLen ∧ s.rxIdx = t.rxIdx := by
  have hst' : t.rxState = .payload := h.rxState.symm.trans hst
  have hc : s.candidateBytes = t.candidateBytes := h.candidate
  have hlen : s.rxIdx = t.rxIdx := by simpa [Block.candidateBytes, hst, hst'] using congrArg List.length hc
  simp only [Block.candidateBytes, hst, hst', List.cons_append, List.cons.injEq] at hc
  obtain ⟨-, -, -, hl, -⟩ := hc
  exact ⟨hl, hlen⟩

/-- In VALIDATE alike states have the same candidate frame, its checksum included. -/
theorem Alike.validate_registers (h : Alike ⟨s, m⟩ ⟨t, m⟩) (hst : s.rxState = .validate) :
    s.candidate = t.candidate ∧ s.rxCks = t.rxCks := by
  have hst' : t.rxState = .validate := h.rxState.symm.trans hst
  have hc : s.candidateBytes = t.candidateBytes := h.candidate
  simp only [Block.candidateBytes, hst, hst'] at hc
  obtain ⟨hs, hc, hl, hp, hk⟩ := trailer_inj (Memory.length_slice _ _) (Memory.length_slice _ _) hc
  simp only [List.cons.injEq, and_true] at hk
  have hcand : s.candidate = t.candidate := by
    rw [Block.candidate, Block.candidate, Packet.mk.injEq]
    exact ⟨hs, hc, hl, hp⟩
  refine ⟨hcand, ?_⟩
  rw [← join_hi_lo s.rxCks, hk.1, hk.2, join_hi_lo]

/-- In SEND alike states have the same length byte: their frames have the same payload. -/
theorem Alike.send_txLen (h : Alike ⟨s, m⟩ ⟨t, m⟩) (hst : s.txState = .send) : s.txLen = t.txLen := by
  obtain ⟨-, -, hp⟩ := encodeFrame_inj (h.sending hst).1
  rw [← Block.lenByte_txPayload s, hp, Block.lenByte_txPayload]

end Alike

/-! ### Each byte step adds its byte to the candidate -/

section Candidate
variable {s : Block} {b : Byte}

theorem Block.candidateBytes_rxCmd (hst : s.rxState = .hdrCmd) :
    Block.candidateBytes { s with rxCmd := b, rxState := .hdrLen } = s.candidateBytes ++ [b] := by
  simp [Block.candidateBytes, hst]

theorem Block.candidateBytes_rxLen (hst : s.rxState = .hdrLen) :
    Block.candidateBytes { s with rxLen := b, rxIdx := 0, rxState := if b = 0 then .cksHi else .payload } =
      s.candidateBytes ++ [b] := by
  by_cases hb : b = 0#8 <;> simp [Block.candidateBytes, Block.rxPayload, Memory.slice, hst, hb]

theorem Block.candidateBytes_rxData (hwf : Memory.wf s.stage = true) (hst : s.rxState = .payload) :
    Block.candidateBytes { s with
      stage := Memory.write s.stage s.rxIdx b
      rxIdx := s.rxIdx + 1
      rxState := if s.rxIdx + 1 = s.rxLen.toNat then .cksHi else .payload } = s.candidateBytes ++ [b] := by
  have hslice : Memory.slice (Memory.write s.stage s.rxIdx b) (s.rxIdx + 1) = Memory.slice s.stage s.rxIdx ++ [b] := by
    rw [Memory.slice_succ, Memory.slice_write hwf _ _ _ (Nat.le_refl _), Memory.read_write hwf, if_pos rfl]
  by_cases hlast : s.rxIdx + 1 = s.rxLen.toNat
  · simp [Block.candidateBytes, Block.rxPayload, hst, ← hlast, hslice]
  · simp [Block.candidateBytes, hst, hlast, hslice]

theorem Block.candidateBytes_rxCksh (hst : s.rxState = .cksHi) :
    Block.candidateBytes { s with rxCks := setHi s.rxCks b, rxState := .cksLo } = s.candidateBytes ++ [b] := by
  simp [Block.candidateBytes, Block.rxPayload, setHi, hst]

theorem Block.candidateBytes_rxCksl (hst : s.rxState = .cksLo) :
    Block.candidateBytes { s with rxCks := setLo s.rxCks b, rxState := .validate } = s.candidateBytes ++ [b] := by
  simp [Block.candidateBytes, Block.rxPayload, setLo, hst]

end Candidate

/-! ### Alike states step alike -/

/-- `o'` follows `o`: to a next state of `o` it answers with one that is alike. -/
def Follows (m : AddrMode) (o o' : BlockOutcome) : Prop :=
  ∀ s : Block, o = .next s → ∃ t : Block, o' = .next t ∧ Alike ⟨s, m⟩ ⟨t, m⟩

/-- Two blocks with the invariant that are alike. -/
structure Twins (m : AddrMode) (s t : Block) : Prop where
  alike : Alike ⟨s, m⟩ ⟨t, m⟩
  inv_left : Inv ⟨s, m⟩
  inv_right : Inv ⟨t, m⟩

/-- R71, R72: neither with the payload complete nor with more of it to come is a packet presented. -/
theorem Block.presented_payload {s : Block} {p : Prop} [Decidable p] (h : s.rxState = if p then .cksHi else .payload) :
    s.presented = none :=
  Block.presented_eq_none (by rw [h]; split <;> simp)

section Steps
variable {m : AddrMode} {s t : Block}

theorem Follows.next (h : Alike ⟨s, m⟩ ⟨t, m⟩) : Follows m (.next s) (.next t) :=
  fun _ hs => ⟨t, rfl, by cases hs; exact h⟩

theorem Follows.fault {f : Fault} {o : BlockOutcome} : Follows m (.fault f) o := nofun

theorem Follows.refused {r : Refusal} {o : BlockOutcome} : Follows m (.refused r) o := nofun

/-- Two answers with guards that agree: it is enough that each branch follows. -/
theorem Follows.ite {p q : Prop} [Decidable p] [Decidable q] {o₁ o₂ o₁' o₂' : BlockOutcome} (hpq : p ↔ q)
    (h₁ : p → Follows m o₁ o₁') (h₂ : ¬ p → Follows m o₂ o₂') :
    Follows m (if p then o₁ else o₂) (if q then o₁' else o₂') := by
  by_cases hp : p
  · rw [if_pos hp, if_pos (hpq.1 hp)]
    exact h₁ hp
  · rw [if_neg hp, if_neg (mt hpq.2 hp)]
    exact h₂ hp

/-- Alike states are alike after the same event. -/
theorem Alike.record (h : Alike ⟨s, m⟩ ⟨t, m⟩) (e : Event) : Alike ⟨s.record e, m⟩ ⟨t.record e, m⟩ :=
  { h with hist := congrArg (· ++ [e]) h.hist }

/-- Candidates that are alike are so with one more byte. -/
theorem Alike.grow (h : Alike ⟨s, m⟩ ⟨t, m⟩) {b : Byte} {s' t' : Block} (hs : s'.candidateBytes = s.candidateBytes ++ [b])
    (ht : t'.candidateBytes = t.candidateBytes ++ [b]) : s'.candidateBytes = t'.candidateBytes :=
  hs.trans ((congrArg (· ++ [b]) h.candidate).trans ht.symm)

/-- Twins are twins after taking the same byte. -/
theorem Twins.rxTake (h : Twins m s t) (b : Byte) : Twins m (s.rxTake b) (t.rxTake b) where
  alike := { h.alike.record (.rxTake b) with rxIn := congrArg List.tail h.alike.rxIn }
  inv_left := { h.inv_left with }
  inv_right := { h.inv_right with }

/-- Of a byte step it is enough to see what it does once the byte is taken. -/
theorem Twins.onByte_follows (h : Twins m s t) {st : RxState} {b : Byte} {k : Block → BlockOutcome}
    (hk : ∀ u v : Block, Twins m u v → u.rxState = st → v.rxState = st → Follows m (k u) (k v)) :
    Follows m (onByte st b k s) (onByte st b k t) := by
  have hst : s.rxState = t.rxState := h.alike.rxState
  have hin : s.rxIn = t.rxIn := h.alike.rxIn
  refine .ite (by rw [hst, hin]) (fun hg => ?_) (fun _ => .next h.alike)
  exact hk _ _ (h.rxTake b) hg.1 (hst.symm.trans hg.1)

/-- The same, for a byte step that always completes. -/
theorem Twins.onByte_next_follows (h : Twins m s t) {st : RxState} {b : Byte} {f : Block → Block}
    (hf : ∀ u v : Block, Twins m u v → u.rxState = st → v.rxState = st → Alike ⟨f u, m⟩ ⟨f v, m⟩) :
    Follows m (onByte st b (fun u => .next (f u)) s) (onByte st b (fun u => .next (f u)) t) :=
  h.onByte_follows fun u v huv hu hv => .next (hf u v huv hu hv)

/-- After a discard nothing of the candidate is left to differ in. -/
theorem Alike.discard (h : Alike ⟨s, m⟩ ⟨t, m⟩) (r : Reason) : Alike ⟨s.discard r, m⟩ ⟨t.discard r, m⟩ :=
  { h.record (.discard r) with rxState := rfl, candidate := rfl, presented := rfl }

/-- R75: VALIDATE judges the candidate frame, which alike states share. -/
theorem Alike.judged (h : Alike ⟨s, m⟩ ⟨t, m⟩) (hst : s.rxState = .validate) (e : Byte) :
    Alike ⟨s.judged m e, m⟩ ⟨t.judged m e, m⟩ := by
  obtain ⟨hcand, hcks⟩ := h.validate_registers hst
  have hverdict : s.verdict m e = t.verdict m e := by
    simp only [Block.candidate, Packet.mk.injEq] at hcand
    obtain ⟨hs, hc, hl, hp⟩ := hcand
    rw [Block.verdict, Block.verdict, hs, hc, hl, hp, hcks]
  obtain ⟨hv, hj⟩ | ⟨r, hv, hj⟩ := s.judged_cases m e
  · have hj' : t.judged m e = { t with rxState := .emit } := by rw [Block.judged, ← hverdict, hv]
    rw [hj, hj']
    exact { h with rxState := rfl, candidate := rfl, presented := congrArg some hcand }
  · have hj' : t.judged m e = t.discard r := by rw [Block.judged, ← hverdict, hv]
    rw [hj, hj']
    exact h.discard r

/-! #### The decoder -/

theorem Twins.execRxSof_follows (h : Twins m s t) : Follows m s.execRxSof t.execRxSof :=
  h.onByte_next_follows fun _ _ huv _ _ => { huv.alike with rxState := rfl, candidate := rfl, presented := rfl }

theorem Twins.execRxSkip_follows (h : Twins m s t) (b : Byte) : Follows m (s.execRxSkip b) (t.execRxSkip b) :=
  .ite .rfl (fun _ => .next h.alike) fun _ =>
    h.onByte_next_follows fun _ _ huv _ _ => { huv.alike with rxState := rfl, candidate := rfl, presented := rfl }

theorem Twins.execRxSlave_follows (h : Twins m s t) (b : Byte) : Follows m (s.execRxSlave b) (t.execRxSlave b) :=
  h.onByte_next_follows fun _ _ huv _ _ => { huv.alike with rxState := rfl, candidate := rfl, presented := rfl }

theorem Twins.execRxCmd_follows (h : Twins m s t) (b : Byte) : Follows m (s.execRxCmd b) (t.execRxCmd b) := by
  refine h.onByte_next_follows fun u v huv hu hv => ?_
  exact { huv.alike with
    rxState := rfl
    candidate := huv.alike.grow (Block.candidateBytes_rxCmd hu) (Block.candidateBytes_rxCmd hv)
    presented := rfl }

theorem Twins.execRxLen_follows (h : Twins m s t) (b : Byte) : Follows m (s.execRxLen b) (t.execRxLen b) := by
  refine h.onByte_next_follows fun u v huv hu hv => ?_
  exact { huv.alike with
    rxState := rfl
    candidate := huv.alike.grow (Block.candidateBytes_rxLen hu) (Block.candidateBytes_rxLen hv)
    presented := (Block.presented_payload rfl).trans (Block.presented_payload rfl).symm }

/-- R72: both states write the same cell and count to the same `rx_len`, because they are alike. -/
theorem Twins.execRxData_follows (h : Twins m s t) (b : Byte) : Follows m (s.execRxData b) (t.execRxData b) := by
  refine h.onByte_follows fun u v huv hu hv => ?_
  obtain ⟨hlen, hidx⟩ := huv.alike.payload_registers hu
  refine .ite (by rw [hidx]) (fun _ => .next ?_) fun _ => .fault
  exact { huv.alike with
    rxState := by simp [hlen, hidx]
    candidate := huv.alike.grow (Block.candidateBytes_rxData huv.inv_left.stage_wf hu)
      (Block.candidateBytes_rxData huv.inv_right.stage_wf hv)
    presented := (Block.presented_payload rfl).trans (Block.presented_payload rfl).symm }

theorem Twins.execRxCksh_follows (h : Twins m s t) (b : Byte) : Follows m (s.execRxCksh b) (t.execRxCksh b) := by
  refine h.onByte_next_follows fun u v huv hu hv => ?_
  exact { huv.alike with
    rxState := rfl
    candidate := huv.alike.grow (Block.candidateBytes_rxCksh hu) (Block.candidateBytes_rxCksh hv)
    presented := rfl }

theorem Twins.execRxCksl_follows (h : Twins m s t) (b : Byte) : Follows m (s.execRxCksl b) (t.execRxCksl b) := by
  refine h.onByte_next_follows fun u v huv hu hv => ?_
  exact { huv.alike with
    rxState := rfl
    candidate := huv.alike.grow (Block.candidateBytes_rxCksl hu) (Block.candidateBytes_rxCksl hv)
    presented := rfl }

theorem Twins.execRxEof_follows (h : Twins m s t) : Follows m (s.execRxEof m) (t.execRxEof m) :=
  h.onByte_next_follows fun _ _ huv hu _ => huv.alike.judged hu endByte

theorem Twins.execRxEofBad_follows (h : Twins m s t) (e : Byte) : Follows m (s.execRxEofBad e) (t.execRxEofBad e) :=
  .ite .rfl (fun _ => .next h.alike) fun _ => h.onByte_next_follows fun _ _ huv _ _ => huv.alike.discard .endMismatch

/-- R77: the packet handed off is the presented one, which alike states share. -/
theorem Twins.execRxAccept_follows (h : Twins m s t) : Follows m s.execRxAccept t.execRxAccept := by
  have hst : s.rxState = t.rxState := h.alike.rxState
  have hready : s.pktReady = t.pktReady := h.alike.pktReady
  refine .ite (by rw [hst, hready]) (fun ⟨hemit, _⟩ => .next ?_) fun _ => .next h.alike
  have hs : s.presented = some s.candidate := Block.presented_eq_some.2 ⟨hemit, rfl⟩
  obtain ⟨-, hcand⟩ := Block.presented_eq_some.1 (h.alike.presented.symm.trans hs)
  rw [hcand]
  exact { h.alike.record (.pktOut t.candidate) with rxState := rfl, candidate := rfl, presented := rfl }

/-! #### The encoder, the checksum ports and RESET -/

/-- R60: the latch is overwritten whole, so its frame is the request's in both states. -/
theorem Twins.execTxEnc_follows (h : Twins m s t) (slave cmd : Byte) (data : List Byte) :
    Follows m (s.execTxEnc slave cmd data) (t.execTxEnc slave cmd data) := by
  have htx : s.txState = t.txState := h.alike.txState
  have hreq : s.requests = t.requests := h.alike.requests
  refine .ite .rfl (fun _ => .refused) fun hlen => ?_
  have hframe : ∀ u : Block, Inv ⟨u, m⟩ →
      encodeFrame slave cmd (Memory.slice (Memory.load u.txData 0 data) (lenByte data).toNat) =
        encodeFrame slave cmd data := fun u hu => by
    rw [Memory.slice_latched hu.txData_wf (Nat.not_lt.1 hlen)]
  refine .ite (by rw [htx, hreq]) (fun _ => .next ?_) fun _ => .next h.alike
  exact { h.alike.record (.encAccept slave cmd data) with
    txState := rfl
    sending := fun _ => ⟨(hframe s h.inv_left).trans (hframe t h.inv_right).symm, rfl⟩
    requests := congrArg (List.erase · _) hreq }

/-- R63: the byte sent is that of the frame in transmission, at the same offset. -/
theorem Twins.execTxByte_follows (h : Twins m s t) : Follows m s.execTxByte t.execTxByte := by
  have htx : s.txState = t.txState := h.alike.txState
  have hready : s.sinkReady = t.sinkReady := h.alike.sinkReady
  refine .ite (by rw [htx, hready]) (fun ⟨hsend, _⟩ => ?_) fun _ => .next h.alike
  obtain ⟨hframe, hpos⟩ := h.alike.sending hsend
  have hlen : s.txLen = t.txLen := h.alike.send_txLen hsend
  obtain ⟨b, hs⟩ := Block.frameByte_isSome (h.inv_left.send_pos hsend)
  have ht : t.frameByte t.txPos = some b := by
    rw [← hs, Block.frameByte_eq_txFrame h.inv_left hsend, hframe, hpos]
    exact Block.frameByte_eq_txFrame h.inv_right (htx.symm.trans hsend) _
  rw [hs, ht]
  refine .next ?_
  exact { h.alike.record (.txOut b) with
    txState := by simp [hlen, show s.txPos = t.txPos from hpos]
    sending := fun _ => ⟨hframe, congrArg (· + 1) hpos⟩ }

theorem Twins.execCks_follows (h : Twins m s t) (slave cmd len : Byte) (data : List Byte) :
    Follows m (s.execCks slave cmd len data) (t.execCks slave cmd len data) :=
  .ite .rfl (fun _ => .next { h.alike with cksOut := congrArg (· ++ _) h.alike.cksOut }) fun _ => .refused

theorem Twins.execCksCheck_follows (h : Twins m s t) (slave cmd len : Byte) (data : List Byte) (cand : Word) :
    Follows m (s.execCksCheck slave cmd len data cand) (t.execCksCheck slave cmd len data cand) :=
  .ite .rfl (fun _ => .next { h.alike with cksOut := congrArg (· ++ _) h.alike.cksOut }) fun _ => .refused

/-- R96, R97: a RESET leaves both units with nothing of a frame, so alike states stay alike, whatever values it draws. -/
theorem Alike.execReset_follows (h : Alike ⟨s, m⟩ ⟨t, m⟩) : Follows m s.execReset t.execReset :=
  .next { h.record .reset with
    rxState := rfl, candidate := rfl, presented := rfl, txState := rfl, sending := nofun }

theorem Twins.execAt_follows (h : Twins m s t) (i : Instr) : Follows m (execAt m i s) (execAt m i t) := by
  cases i with
  | rxSof => exact h.execRxSof_follows
  | rxSkip b => exact h.execRxSkip_follows b
  | rxSlave b => exact h.execRxSlave_follows b
  | rxCmd b => exact h.execRxCmd_follows b
  | rxLen b => exact h.execRxLen_follows b
  | rxData b => exact h.execRxData_follows b
  | rxCksh b => exact h.execRxCksh_follows b
  | rxCksl b => exact h.execRxCksl_follows b
  | rxEof => exact h.execRxEof_follows
  | rxEofBad e => exact h.execRxEofBad_follows e
  | rxAccept => exact h.execRxAccept_follows
  | txEnc slave cmd data => exact h.execTxEnc_follows slave cmd data
  | txByte => exact h.execTxByte_follows
  | cks slave cmd len data => exact h.execCks_follows slave cmd len data
  | cksCheck slave cmd len data cand => exact h.execCksCheck_follows slave cmd len data cand
  | reset => exact h.alike.execReset_follows

end Steps

/-! ### The next turn of alike states -/

/-- Two turns that come to the same, in alike states. -/
inductive AlikeTurned (m : AddrMode) : Turned → Turned → Prop
  | run (i : Instr) {s t : Block} (h : Alike ⟨s, m⟩ ⟨t, m⟩) : AlikeTurned m (.run i s) (.run i t)
  | moved {s t : Block} (h : Alike ⟨s, m⟩ ⟨t, m⟩) : AlikeTurned m (.moved s) (.moved t)
  | rejected (r : Refusal) : AlikeTurned m (.rejected r) (.rejected r)

section Turns
variable {m : AddrMode} {s t : Block}

theorem Alike.turnsTo (h : Alike ⟨s, m⟩ ⟨t, m⟩) (ts : List Turn) :
    Alike ⟨{ s with turns := ts }, m⟩ ⟨{ t with turns := ts }, m⟩ := { h with turns := rfl }

theorem Alike.envTo (h : Alike ⟨s, m⟩ ⟨t, m⟩) (es : List EnvMove) :
    Alike ⟨{ s with env := es }, m⟩ ⟨{ t with env := es }, m⟩ := { h with env := rfl }

theorem Alike.runOr_alike (h : Alike ⟨s, m⟩ ⟨t, m⟩) {o o' : Option Instr} (ho : o = o') :
    AlikeTurned m (runOr o s) (runOr o' t) := by
  subst ho
  cases o with
  | none => exact .moved h
  | some i => exact .run i h

theorem Alike.atPort_alike (h : Alike ⟨s, m⟩ ⟨t, m⟩) (sel : Selector) : AlikeTurned m (atPort sel s) (atPort sel t) := by
  unfold atPort
  split
  · exact .run _ h
  · exact .rejected _
  · exact .rejected _
  · exact .moved h

theorem Alike.envMove_alike (h : Alike ⟨s, m⟩ ⟨t, m⟩) (e : EnvMove) : AlikeTurned m (envMove e s) (envMove e t) := by
  cases e with
  | rx bytes => exact .moved { h with rxIn := congrArg (· ++ bytes) h.rxIn }
  | enc r =>
    simp only [envMove]
    split
    · exact .moved { h with requests := congrArg (· ++ [r]) h.requests }
    · exact .rejected _
  | sink ready => exact .moved { h with sinkReady := rfl }
  | pkt ready => exact .moved { h with pktReady := rfl }
  | reset => exact h.atPort_alike .resetPort
  | cks slave cmd len data => exact h.atPort_alike (.checksumPort slave cmd len data)
  | cksCheck slave cmd len data cand => exact h.atPort_alike (.checkPort slave cmd len data cand)

theorem Alike.decoderOp_eq (h : Alike ⟨s, m⟩ ⟨t, m⟩) : decoderOp s = decoderOp t := by
  have hst : s.rxState = t.rxState := h.rxState
  have hin : s.rxIn = t.rxIn := h.rxIn
  have hready : s.pktReady = t.pktReady := h.pktReady
  simp only [decoderOp, hst, hin, hready]

theorem Alike.encoderOp_eq (h : Alike ⟨s, m⟩ ⟨t, m⟩) (k : Nat) : encoderOp k s = encoderOp k t := by
  have htx : s.txState = t.txState := h.txState
  have hreq : s.requests = t.requests := h.requests
  have hready : s.sinkReady = t.sinkReady := h.sinkReady
  simp only [encoderOp, htx, hreq, hready]

theorem Alike.takeTurn_alike (h : Alike ⟨s, m⟩ ⟨t, m⟩) (turn : Turn) :
    AlikeTurned m (takeTurn turn s) (takeTurn turn t) := by
  cases turn with
  | decoder => exact h.runOr_alike h.decoderOp_eq
  | encoder k => exact h.runOr_alike (h.encoderOp_eq k)
  | environment =>
    have henv : s.env = t.env := h.env
    cases hs : s.env with
    | nil =>
      simp only [takeTurn, envTurn, hs, henv.symm.trans hs]
      exact .moved h
    | cons e rest =>
      simp only [takeTurn, envTurn, hs, henv.symm.trans hs]
      exact (h.envTo rest).envMove_alike e

theorem Alike.nextTurn_alike (h : Alike ⟨s, m⟩ ⟨t, m⟩) : AlikeTurned m (nextTurn s) (nextTurn t) := by
  have hturns : s.turns = t.turns := h.turns
  cases hs : s.turns with
  | nil =>
    have hdefault : defaultTurn s = defaultTurn t := by
      simp only [defaultTurn, h.decoderOp_eq, h.encoderOp_eq]
    rw [nextTurn_nil hs, nextTurn_nil (hturns.symm.trans hs), hdefault]
    exact h.takeTurn_alike _
  | cons turn rest =>
    rw [nextTurn_cons hs, nextTurn_cons (hturns.symm.trans hs)]
    exact (h.turnsTo rest).takeTurn_alike turn

/-- The state an operation runs in has the invariant: before it only the turn and the environment's move are used up. -/
theorem Inv.nextTurn_run (hinv : Inv ⟨s, m⟩) {i : Instr} {u : Block} (h : nextTurn s = .run i u) :
    Inv ⟨u, m⟩ := by
  obtain ⟨ts, -, ⟨j, -, e⟩ | ⟨k, j, -, e⟩ | e | e⟩ := nextTurn_effect s
  · cases h.symm.trans e
    exact hinv.environment hinv.requests_legal
  · cases h.symm.trans e
    exact hinv.environment hinv.requests_legal
  · cases h.symm.trans e
  · rw [h] at e
    cases e
    exact hinv.environment hinv.requests_legal

/-- A step of one of two alike states with the invariant is followed by the other. -/
theorem Twins.stepAt_follows (h : Twins m s t) : Follows m (stepAt m s) (stepAt m t) := by
  have hturned := h.alike.nextTurn_alike
  have hs : ∀ i u, nextTurn s = .run i u → Inv ⟨u, m⟩ := fun _ _ => h.inv_left.nextTurn_run
  have ht : ∀ i u, nextTurn t = .run i u → Inv ⟨u, m⟩ := fun _ _ => h.inv_right.nextTurn_run
  rw [stepAt, stepAt]
  generalize nextTurn s = a at hturned hs
  generalize nextTurn t = b at hturned ht
  cases hturned with
  | run i hu => exact Twins.execAt_follows ⟨hu, hs _ _ rfl, ht _ _ rfl⟩ i
  | moved hu => exact .next hu
  | rejected r => exact .refused

/-- What follows block by block follows on the machine, at its mode. -/
theorem Follows.atMode {f : AddrMode → Block → BlockOutcome} (h : Follows m (f m s) (f m t)) {u : State}
    (hu : State.atMode f ⟨s, m⟩ = .next u) : ∃ v : State, State.atMode f ⟨t, m⟩ = .next v ∧ Alike u v := by
  obtain ⟨hu, hmode⟩ := State.atMode_next.1 hu
  obtain ⟨b, m'⟩ := u
  cases hmode
  obtain ⟨c, hc, halike⟩ := h b hu
  exact ⟨⟨c, m⟩, State.atMode_next.2 ⟨hc, rfl⟩, halike⟩

end Turns

/-- Settles O56: a RESET follows on alike states as they are, any other step under the invariant. -/
theorem staleValuesNeverReachOutputs : Obligations.StaleValuesNeverReachOutputs := by
  refine ⟨fun s t u v h hu hv => ?_, fun s t s' hs ht h hstep => ?_⟩
  · obtain ⟨s, m⟩ := s
    obtain ⟨t, m'⟩ := t
    obtain rfl : m = m' := h.addrMode
    obtain ⟨v', hv', halike⟩ := h.execReset_follows.atMode (f := fun _ => Block.execReset) hu
    cases hv.symm.trans hv'
    exact halike
  · obtain ⟨s, m⟩ := s
    obtain ⟨t, m'⟩ := t
    obtain rfl : m = m' := h.addrMode
    exact (Twins.stepAt_follows ⟨h, hs, ht⟩).atMode hstep

end Sys2Proof.Machine

/-! ## What every step keeps: the order of the input, the independence of the two units, and the accounts of the wire,
of the packets and of DECODE (spec/60_exceptions.md R93) -/

namespace Sys2Proof.Machine

/-! ### Waiting -/

section Waiting
variable {s : Block}

/-- R67, R77: the decoder has no operation without a byte, and none in EMIT while acceptance is withheld. -/
theorem decoderOp_waiting (h : (s.rxState ≠ .emit ∧ s.rxIn = []) ∨ (s.rxState = .emit ∧ s.pktReady = false)) :
    decoderOp s = none := by
  obtain ⟨hst, hin⟩ | ⟨hst, hready⟩ := h
  · exact decoderOp_empty hst hin
  · simp [decoderOp_emit hst, hready]

/-- R60, R64: the encoder has no operation without a request, and none in SEND while the sink is not ready. -/
theorem encoderOp_waiting (h : if s.txState = .idle then s.requests = [] else s.sinkReady = false) (pick : Nat) :
    encoderOp pick s = none := by
  cases hst : s.txState <;> simp_all [encoderOp]

/-- With no turn listed, no operation enabled and no move of the environment left, nothing moves. -/
theorem nextTurn_stuck (hturns : s.turns = []) (henv : s.env = []) (hdec : decoderOp s = none)
    (henc : encoderOp 0 s = none) : nextTurn s = .moved s := by
  have hturn : defaultTurn s = .environment := by simp [defaultTurn, hdec, henc]
  rw [nextTurn_nil hturns, hturn, takeTurn, envTurn, henv]

/-- A turn of a decoder with no operation uses up the turn only. -/
theorem nextTurn_decoder_waiting {ts : List Turn} (hturns : s.turns = .decoder :: ts)
    (hdec : decoderOp { s with turns := ts } = none) : nextTurn s = .moved { s with turns := ts } := by
  rw [nextTurn_cons hturns, takeTurn, hdec, runOr]

end Waiting

/-- A turn that moves the block runs no operation of the machine. -/
theorem step_of_moved {s : State} {u : Block} (h : nextTurn s.toBlock = .moved u) :
    step s = .next ⟨u, s.addrMode⟩ :=
  State.atMode_next.2 ⟨by rw [stepAt, h], rfl⟩

/-- Settles O41: neither unit has an operation, and the environment's turn finds no move. -/
theorem stuckMachineStays : Obligations.StuckMachineStays := by
  intro s hturns henv hdec henc
  refine step_of_moved (nextTurn_stuck hturns henv (decoderOp_waiting ?_) (encoderOp_waiting henc 0))
  by_cases hst : s.rxState = .emit
  · exact .inr ⟨hst, by rwa [if_pos hst] at hdec⟩
  · exact .inl ⟨hst, by rwa [if_neg hst] at hdec⟩

/-- Settles O42, by induction on the number of turns: each is used up in the same waiting state. -/
theorem decoderWaits : Obligations.DecoderWaits := by
  intro n
  induction n with
  | zero =>
    rintro s ts - rfl
    rfl
  | succ n ih =>
    intro s ts hwait hturns
    rw [List.replicate_succ, List.cons_append] at hturns
    rw [run_succ_next (M := core) n (step_of_moved (nextTurn_decoder_waiting hturns (decoderOp_waiting hwait)))]
    exact ih { s with turns := List.replicate n .decoder ++ ts } ts hwait rfl

/-! ### The frame of each unit -/

/-- `s` with the decoder's state, the input stream and the history of `u` (R12, R93). -/
def Block.withDecoderOf (s u : Block) : Block :=
  { s with
    rxState := u.rxState, rxSlave := u.rxSlave, rxCmd := u.rxCmd, rxLen := u.rxLen, stage := u.stage,
    rxIdx := u.rxIdx, rxCks := u.rxCks, rxIn := u.rxIn, hist := u.hist }

/-- `s` with the encoder's state, the presented requests and the history of `u` (R12, R93). -/
def Block.withEncoderOf (s u : Block) : Block :=
  { s with
    txState := u.txState, txSlave := u.txSlave, txCmd := u.txCmd, txLen := u.txLen, txCks := u.txCks,
    txData := u.txData, txPos := u.txPos, requests := u.requests, hist := u.hist }

section Frames
variable {i : Instr} {m : AddrMode} {s t : Block}

/-- R75, R85: whatever VALIDATE decides, it writes decoder state only. -/
theorem Block.judged_frame (m : AddrMode) (s : Block) (e : Byte) : s.judged m e = s.withDecoderOf (s.judged m e) := by
  obtain ⟨-, hj⟩ | ⟨r, -, hj⟩ := s.judged_cases m e <;> rw [hj] <;> rfl

/-- R38: a decoder operation writes the decoder's state, the input stream and the history only. -/
theorem execAt_decoder_frame (hi : isDecoderOp i = true) (h : execAt m i s = .next t) : t = s.withDecoderOf t := by
  cases i with
  | rxSof => obtain ⟨-, -, rfl⟩ | rfl := Block.execRxSof_next h <;> rfl
  | rxSkip b => obtain ⟨-, -, -, rfl⟩ | rfl := Block.execRxSkip_next h <;> rfl
  | rxSlave b => obtain ⟨-, -, rfl⟩ | rfl := Block.execRxSlave_next h <;> rfl
  | rxCmd b => obtain ⟨-, -, rfl⟩ | rfl := Block.execRxCmd_next h <;> rfl
  | rxLen b => obtain ⟨-, -, rfl⟩ | rfl := Block.execRxLen_next h <;> rfl
  | rxData b => obtain ⟨-, -, -, rfl⟩ | rfl := Block.execRxData_next h <;> rfl
  | rxCksh b => obtain ⟨-, -, rfl⟩ | rfl := Block.execRxCksh_next h <;> rfl
  | rxCksl b => obtain ⟨-, -, rfl⟩ | rfl := Block.execRxCksl_next h <;> rfl
  | rxEof =>
    obtain ⟨-, -, rfl⟩ | rfl := Block.execRxEof_next h
    · exact (s.rxTake endByte).judged_frame m endByte
    · rfl
  | rxEofBad e => obtain ⟨-, -, -, rfl⟩ | rfl := Block.execRxEofBad_next h <;> rfl
  | rxAccept => obtain ⟨-, -, rfl⟩ | rfl := Block.execRxAccept_next h <;> rfl
  | txEnc | txByte | cks | cksCheck | reset => cases hi

/-- R38: an encoder operation writes the encoder's state, the presented requests and the history only. -/
theorem execAt_encoder_frame (hi : isEncoderOp i = true) (h : execAt m i s = .next t) : t = s.withEncoderOf t := by
  cases i with
  | txEnc slave cmd data => obtain ⟨-, -, -, rfl⟩ | rfl := Block.execTxEnc_next h <;> rfl
  | txByte => obtain ⟨b, -, -, -, rfl⟩ | rfl := Block.execTxByte_next h <;> rfl
  | _ => cases hi

/-- R52, R53: a checksum port writes no state of the block, only the model's own list of answers (log 10). -/
theorem execAt_checksum_frame (hdec : isDecoderOp i = false) (henc : isEncoderOp i = false) (hreset : i ≠ .reset)
    (h : execAt m i s = .next t) : t = { s with cksOut := t.cksOut } := by
  cases i with
  | cks slave cmd len data =>
    cases Block.execCks_next h
    rfl
  | cksCheck slave cmd len data cand =>
    cases Block.execCksCheck_next h
    rfl
  | reset => exact absurd rfl hreset
  | txEnc | txByte => cases henc
  | _ => cases hdec

end Frames

/-- Settles O50: the frame of each unit, with the machine's mode beside it. -/
theorem unitsShareNoState : Obligations.UnitsShareNoState := by
  intro i s t h
  obtain ⟨h, hmode⟩ := exec_next.1 h
  obtain ⟨t, m⟩ := t
  cases hmode
  exact ⟨fun hi => congrArg (State.mk · s.addrMode) (execAt_decoder_frame hi h),
    fun hi => congrArg (State.mk · s.addrMode) (execAt_encoder_frame hi h)⟩

/-! ### The events of each unit -/

/-- The events of the decoder (R28). -/
def Event.isDecoder : Event → Bool
  | .rxTake _ | .discard _ | .pktOut _ => true
  | .encAccept _ _ _ | .txOut _ | .reset => false

/-- The events of the encoder (R28). -/
def Event.isEncoder : Event → Bool
  | .encAccept _ _ _ | .txOut _ => true
  | .rxTake _ | .discard _ | .pktOut _ | .reset => false

theorem decoderEvents_append (h es : List Event) : decoderEvents (h ++ es) = decoderEvents h ++ decoderEvents es :=
  List.filter_append ..

theorem encoderEvents_append (h es : List Event) : encoderEvents (h ++ es) = encoderEvents h ++ encoderEvents es :=
  List.filter_append ..

/-- No decoder event is among the encoder's events. -/
theorem decoderEvents_eq_nil {es : List Event} (h : ∀ e ∈ es, e.isEncoder = true) : decoderEvents es = [] := by
  refine List.filter_eq_nil_iff.2 fun e he => ?_
  have := h e he
  cases e <;> simp_all [Event.isEncoder]

/-- No encoder event is among the decoder's events. -/
theorem encoderEvents_eq_nil {es : List Event} (h : ∀ e ∈ es, e.isDecoder = true) : encoderEvents es = [] := by
  refine List.filter_eq_nil_iff.2 fun e he => ?_
  have := h e he
  cases e <;> simp_all [Event.isDecoder]

/-- An operation of the encoder is neither of the decoder nor RESET. -/
theorem not_decoderOp_of_encoderOp {i : Instr} (h : isEncoderOp i = true) : isDecoderOp i = false ∧ i ≠ .reset := by
  cases i with
  | txEnc | txByte => exact ⟨rfl, nofun⟩
  | _ => cases h

section UnitEvents
variable {i : Instr} {m : AddrMode} {s t : Block} {e : Event}

/-- A decoder operation can record a decoder event only. -/
theorem CanRecord.isDecoder (hi : isDecoderOp i = true) (h : CanRecord i s e) : e.isDecoder = true := by
  cases e with
  | rxTake | discard | pktOut => rfl
  | encAccept | txOut | reset =>
    cases h
    cases hi

/-- An operation that is neither the decoder's nor RESET can record an encoder event only. -/
theorem CanRecord.isEncoder (hi : isDecoderOp i = false) (hreset : i ≠ .reset) (h : CanRecord i s e) :
    e.isEncoder = true := by
  cases e with
  | encAccept | txOut => rfl
  | reset => exact absurd h hreset
  | rxTake b =>
    obtain ⟨st, hsel⟩ := h
    cases i <;> cases hsel <;> cases hi
  | discard r =>
    obtain rfl | ⟨b, rfl⟩ := h <;> cases hi
  | pktOut p =>
    obtain ⟨rfl, -⟩ := h
    cases hi

/-- What a decoder operation adds to the history are decoder events. -/
theorem execAt_decoder_events (hi : isDecoderOp i = true) (h : execAt m i s = .next t) :
    ∃ es : List Event, t.hist = s.hist ++ es ∧ ∀ e ∈ es, e.isDecoder = true := by
  obtain ⟨es, hhist, hrec, -⟩ := execAt_eventsFrom h
  exact ⟨es, hhist, fun e he => (hrec e he).isDecoder hi⟩

/-- What any other operation but RESET adds to the history are encoder events. -/
theorem execAt_encoder_events (hi : isDecoderOp i = false) (hreset : i ≠ .reset) (h : execAt m i s = .next t) :
    ∃ es : List Event, t.hist = s.hist ++ es ∧ ∀ e ∈ es, e.isEncoder = true := by
  obtain ⟨es, hhist, hrec, -⟩ := execAt_eventsFrom h
  exact ⟨es, hhist, fun e he => (hrec e he).isEncoder hi hreset⟩

/-- RESET, the one operation of neither kind, records itself. -/
theorem execAt_reset_hist (h : execAt m .reset s = .next t) : t.hist = s.hist ++ [.reset] := by
  cases h
  rfl

end UnitEvents

/-! ### Either order of the two units -/

/-- `f` on the next state of an answer. -/
def mapNext (f : Block → Block) : BlockOutcome → BlockOutcome
  | .next s => .next (f s)
  | .fault r => .fault r
  | .refused r => .refused r

/-- An answer whose next state is changed into `t` has a next state. -/
theorem eq_next_of_mapNext {f : Block → Block} {o : BlockOutcome} {t : Block} (h : mapNext f o = .next t) :
    ∃ s : Block, o = .next s ∧ t = f s := by
  cases o with
  | next s => exact ⟨s, rfl, by cases h; rfl⟩
  | fault r => cases h
  | refused r => cases h

/-- Two answers with one guard: it is enough that each branch is changed. -/
theorem ite_eq_mapNext {f : Block → Block} {p : Prop} [Decidable p] {o₁ o₂ o₁' o₂' : BlockOutcome}
    (h₁ : o₁ = mapNext f o₁') (h₂ : o₂ = mapNext f o₂') :
    (if p then o₁ else o₂) = mapNext f (if p then o₁' else o₂') := by
  rw [h₁, h₂, apply_ite (mapNext f)]

/-- The decoder of `s` beside the encoder of `u`, with the history of `u` before its own. -/
def Block.besideEncoder (u s : Block) : Block :=
  { s.withEncoderOf u with hist := u.hist ++ s.hist }

/-- The encoder of `s` beside the decoder of `u`, with the history of `u` before its own. -/
def Block.besideDecoder (u s : Block) : Block :=
  { s.withDecoderOf u with hist := u.hist ++ s.hist }

section Beside
variable (u s : Block)

theorem Block.besideEncoder_record (e : Event) : (u.besideEncoder s).record e = u.besideEncoder (s.record e) := by
  simp [Block.besideEncoder, Block.withEncoderOf, Block.record]

theorem Block.besideDecoder_record (e : Event) : (u.besideDecoder s).record e = u.besideDecoder (s.record e) := by
  simp [Block.besideDecoder, Block.withDecoderOf, Block.record]

theorem Block.besideEncoder_rxTake (b : Byte) : (u.besideEncoder s).rxTake b = u.besideEncoder (s.rxTake b) :=
  u.besideEncoder_record { s with rxIn := s.rxIn.tail } (.rxTake b)

theorem Block.besideEncoder_discard (r : Reason) : (u.besideEncoder s).discard r = u.besideEncoder (s.discard r) :=
  congrArg (fun v : Block => { v with rxState := .seekStart }) (u.besideEncoder_record s (.discard r))

theorem Block.besideEncoder_judged (m : AddrMode) (e : Byte) :
    (u.besideEncoder s).judged m e = u.besideEncoder (s.judged m e) := by
  have hv : (u.besideEncoder s).verdict m e = s.verdict m e := rfl
  rw [Block.judged, Block.judged, hv]
  cases s.verdict m e with
  | none => rfl
  | some r => exact u.besideEncoder_discard s r

/-- A byte step does the same beside another encoder as soon as what follows the byte does. -/
theorem onByte_besideEncoder {st : RxState} {b : Byte} {k : Block → BlockOutcome}
    (hk : ∀ v : Block, k (u.besideEncoder v) = mapNext u.besideEncoder (k v)) :
    onByte st b k (u.besideEncoder s) = mapNext u.besideEncoder (onByte st b k s) :=
  ite_eq_mapNext ((congrArg k (u.besideEncoder_rxTake s b)).trans (hk (s.rxTake b))) rfl

/-- R38: a decoder operation does the same whatever encoder and history it stands beside. -/
theorem execAt_besideEncoder {i : Instr} (m : AddrMode) (hi : isDecoderOp i = true) :
    execAt m i (u.besideEncoder s) = mapNext u.besideEncoder (execAt m i s) := by
  unfold execAt
  cases i with
  | rxSof | rxSlave | rxCmd | rxLen | rxCksh | rxCksl =>
    simp only [Block.execRxSof, Block.execRxSlave, Block.execRxCmd, Block.execRxLen, Block.execRxCksh, Block.execRxCksl]
    exact onByte_besideEncoder u s fun _ => rfl
  | rxSkip b => exact ite_eq_mapNext rfl (onByte_besideEncoder u s fun _ => rfl)
  | rxData b =>
    simp only [Block.execRxData]
    exact onByte_besideEncoder u s fun _ => ite_eq_mapNext rfl rfl
  | rxEof =>
    simp only [Block.execRxEof]
    exact onByte_besideEncoder u s fun v => congrArg Host.Outcome.next (u.besideEncoder_judged v m endByte)
  | rxEofBad e =>
    refine ite_eq_mapNext rfl (onByte_besideEncoder u s (k := fun v => .next (v.discard .endMismatch)) fun v => ?_)
    exact congrArg Host.Outcome.next (u.besideEncoder_discard v .endMismatch)
  | rxAccept =>
    refine ite_eq_mapNext (congrArg Host.Outcome.next ?_) rfl
    exact congrArg (fun v : Block => { v with rxState := .seekStart }) (u.besideEncoder_record s (.pktOut s.candidate))
  | txEnc | txByte | cks | cksCheck | reset => cases hi

/-- R38: an encoder operation does the same whatever decoder and history it stands beside. -/
theorem execAt_besideDecoder {j : Instr} (m : AddrMode) (hj : isEncoderOp j = true) :
    execAt m j (u.besideDecoder s) = mapNext u.besideDecoder (execAt m j s) := by
  cases j with
  | txEnc slave cmd data =>
    refine ite_eq_mapNext rfl (ite_eq_mapNext (congrArg Host.Outcome.next ?_) rfl)
    simp [Block.besideDecoder, Block.withDecoderOf, Block.record]
  | txByte =>
    refine ite_eq_mapNext ?_ rfl
    have hb : (u.besideDecoder s).frameByte (u.besideDecoder s).txPos = s.frameByte s.txPos := rfl
    rw [hb]
    cases s.frameByte s.txPos with
    | none => rfl
    | some b =>
      refine congrArg Host.Outcome.next ?_
      exact congrArg (fun v : Block => { v with
        txPos := s.txPos + 1
        txState := if s.txPos + 1 = 7 + s.txLen.toNat then .idle else .send }) (u.besideDecoder_record s (.txOut b))
  | _ => cases hj

end Beside

/-- The block with nothing recorded yet. -/
def Block.unrecorded (s : Block) : Block := { s with hist := [] }

section Commute
variable {i j : Instr} {m : AddrMode} {s a b : Block}

/-- What only the encoder has changed stands beside what was there, with nothing recorded. -/
theorem Block.besideEncoder_unrecorded (h : b = s.withEncoderOf b) : b.besideEncoder s.unrecorded = b := by
  rw [h]
  simp [Block.besideEncoder, Block.withEncoderOf, Block.unrecorded]

/-- What only the decoder has changed stands beside what was there, with nothing recorded. -/
theorem Block.besideDecoder_unrecorded (h : a = s.withDecoderOf a) : a.besideDecoder s.unrecorded = a := by
  rw [h]
  simp [Block.besideDecoder, Block.withDecoderOf, Block.unrecorded]

/-- An operation that does the same beside any `u` comes in `s` and in `b` to the same block `a₀`, with what stood
beside it in each, if `s` and `b` differ in that only. -/
theorem execAt_apart {f : Block → Block → Block}
    (hf : ∀ u v : Block, execAt m i (f u v) = mapNext (f u) (execAt m i v)) (hs : f s s.unrecorded = s)
    (hb : f b s.unrecorded = b) (ha : execAt m i s = .next a) :
    ∃ a₀ : Block, execAt m i s.unrecorded = .next a₀ ∧ a = f s a₀ ∧ execAt m i b = .next (f b a₀) := by
  have hmap := hf s s.unrecorded
  rw [hs, ha] at hmap
  obtain ⟨a₀, ha₀, rfl⟩ := eq_next_of_mapNext hmap.symm
  refine ⟨a₀, ha₀, rfl, ?_⟩
  have hmap := hf b s.unrecorded
  rwa [hb, ha₀] at hmap

/-- Two blocks that came from one, by the decoder and by the encoder, make up the same whole either way around. -/
theorem Block.beside_comm (ha : a = s.unrecorded.withDecoderOf a) (hb : b = s.unrecorded.withEncoderOf b) :
    { (s.besideEncoder a).besideDecoder b with hist := ((s.besideDecoder b).besideEncoder a).hist } =
      (s.besideDecoder b).besideEncoder a := by
  rw [ha, hb]
  rfl

/-- R38, R51: the operations of the two units, in either order, come to blocks that differ in the order of their new
events only. -/
theorem execAt_commute (hi : isDecoderOp i = true) (hj : isEncoderOp j = true) (ha : execAt m i s = .next a)
    (hb : execAt m j s = .next b) :
    ∃ (u v : Block) (ds es : List Event), execAt m j a = .next u ∧ execAt m i b = .next v ∧
      { u with hist := v.hist } = v ∧ u.hist = s.hist ++ ds ++ es ∧ v.hist = s.hist ++ es ++ ds ∧
      (∀ e ∈ ds, e.isDecoder = true) ∧ ∀ e ∈ es, e.isEncoder = true := by
  obtain ⟨a₀, ha₀, rfl, hv⟩ := execAt_apart (fun u v => execAt_besideEncoder u v m hi)
    (Block.besideEncoder_unrecorded rfl) (Block.besideEncoder_unrecorded (execAt_encoder_frame hj hb)) ha
  obtain ⟨b₀, hb₀, rfl, hu⟩ := execAt_apart (fun u v => execAt_besideDecoder u v m hj)
    (Block.besideDecoder_unrecorded rfl) (Block.besideDecoder_unrecorded (execAt_decoder_frame hi ha)) hb
  obtain ⟨ds, hds, hdec⟩ := execAt_decoder_events hi ha₀
  obtain ⟨hj', hreset⟩ := not_decoderOp_of_encoderOp hj
  obtain ⟨es, hes, henc⟩ := execAt_encoder_events hj' hreset hb₀
  exact ⟨_, _, ds, es, hu, hv, Block.beside_comm (execAt_decoder_frame hi ha₀) (execAt_encoder_frame hj hb₀),
    congrArg₂ (s.hist ++ · ++ ·) hds hes, congrArg₂ (s.hist ++ · ++ ·) hes hds, hdec, henc⟩

end Commute

/-- Settles O51: the new events of each unit come in the same order, because the other unit's events are none of its. -/
theorem unitsCommute : Obligations.UnitsCommute := by
  intro i j s a b hi hj ha hb
  obtain ⟨ha, hma⟩ := exec_next.1 ha
  obtain ⟨hb, hmb⟩ := exec_next.1 hb
  obtain ⟨u, v, ds, es, hu, hv, huv, huhist, hvhist, hdec, henc⟩ := execAt_commute hi hj ha hb
  have hds : encoderEvents ds = [] := encoderEvents_eq_nil hdec
  have hes : decoderEvents es = [] := decoderEvents_eq_nil henc
  refine ⟨⟨u, s.addrMode⟩, ⟨v, s.addrMode⟩, exec_next.2 ⟨by rwa [hma], hma.symm⟩, exec_next.2 ⟨by rwa [hmb], hmb.symm⟩,
    congrArg (State.mk · s.addrMode) huv, ?_, ?_⟩
  · simp only [huhist, hvhist, decoderEvents_append, hes, List.append_nil]
  · simp only [huhist, hvhist, encoderEvents_append, hds, List.append_nil]

/-! ### What a property of the machine has to keep -/

/-- `P` reads nothing of the machine's environment (R93). -/
def IgnoresEnvironment (P : State → Prop) : Prop :=
  ∀ (s : State) (rxIn : List Byte) (requests : List Request) (sinkReady pktReady : Bool) (env : List EnvMove)
    (turns : List Turn), P s →
    P { s with
      rxIn := rxIn, requests := requests, sinkReady := sinkReady, pktReady := pktReady, env := env, turns := turns }

/-- R93: a property that reads nothing of the environment is kept by every step, if every operation keeps it under the
invariant. -/
theorem step_keeps {P : State → Prop} (henv : IgnoresEnvironment P)
    (hexec : ∀ (m : AddrMode) (i : Instr) (s t : Block), Inv ⟨s, m⟩ → P ⟨s, m⟩ → execAt m i s = .next t → P ⟨t, m⟩)
    {s t : State} (hinv : Inv s) (hs : P s) (h : step s = .next t) : P t := by
  obtain ⟨-, ts, es, ⟨i, he⟩ | rfl | ⟨bs, -, rfl⟩ | ⟨r, -, rfl⟩ | ⟨x, rfl⟩ | ⟨x, rfl⟩⟩ := step_next h
  · obtain ⟨he, hmode⟩ := exec_next.1 he
    obtain ⟨t, m⟩ := t
    cases hmode
    exact hexec _ i _ t (hinv.environment hinv.requests_legal) (henv s _ _ _ _ es ts hs) he
  all_goals exact henv s _ _ _ _ _ _ hs

/-! ### What an operation leaves of the other unit -/

/-- R38: what is neither an operation of the decoder nor RESET leaves the decoder and the input stream. -/
theorem execAt_keeps_decoder {i : Instr} {m : AddrMode} {s t : Block} (hdec : isDecoderOp i = false)
    (hreset : i ≠ .reset) (h : execAt m i s = .next t) : s.withDecoderOf t = { s with hist := t.hist } := by
  cases henc : isEncoderOp i with
  | true =>
    rw [execAt_encoder_frame henc h]
    rfl
  | false =>
    rw [execAt_checksum_frame hdec henc hreset h]
    rfl

/-! ### What a decoder operation can come to -/

/-- All that a decoder operation can come to. -/
inductive DecoderEffect (m : AddrMode) (s : Block) : Block → Prop
  /-- Nothing moves. -/
  | waits : DecoderEffect m s s
  /-- Outside a frame a byte that starts none is dropped (R68). -/
  | skips (b : Byte) : b ≠ startByte → s.rxState = .seekStart → s.rxIn.head? = some b →
      DecoderEffect m s { s.rxTake b with rxState := .seekStart }
  /-- A byte becomes the next byte of the candidate frame (R68 to R74). -/
  | grows (b : Byte) (t : Block) : s.rxIn.head? = some b → t.rxIn = s.rxIn.tail → t.hist = s.hist ++ [.rxTake b] →
      s.presented = none → t.presented = none →
      (Memory.wf s.stage = true → t.candidateBytes = s.candidateBytes ++ [b]) → DecoderEffect m s t
  /-- The byte after the checksum has VALIDATE decide (R75). -/
  | judges (e : Byte) : s.rxState = .validate → s.rxIn.head? = some e →
      DecoderEffect m s ((s.rxTake e).judged m e)
  /-- The packet presented is handed off (R77). -/
  | hands : s.rxState = .emit → DecoderEffect m s { s.emit s.candidate with rxState := .seekStart }

section DecoderEffects
variable {m : AddrMode} {s t : Block} {b : Byte}

theorem Block.candidateBytes_rxSof (hst : s.rxState = .seekStart) :
    Block.candidateBytes { s with rxState := .hdrSlave } = s.candidateBytes ++ [startByte] := by
  simp [Block.candidateBytes, hst]

theorem Block.candidateBytes_rxSlave (hst : s.rxState = .hdrSlave) :
    Block.candidateBytes { s with rxSlave := b, rxState := .hdrCmd } = s.candidateBytes ++ [b] := by
  simp [Block.candidateBytes, hst]

/-- R67 to R77: what each operation of the decoder does, once its guard holds, is one of these effects. -/
theorem execAt_decoder_effect {i : Instr} (hi : isDecoderOp i = true) (h : execAt m i s = .next t) :
    DecoderEffect m s t := by
  cases i with
  | rxSof =>
    obtain ⟨hst, hb, rfl⟩ | rfl := Block.execRxSof_next h
    · exact .grows _ _ hb rfl rfl (Block.presented_eq_none (by simp [hst])) rfl fun _ =>
        Block.candidateBytes_rxSof (s := s.rxTake startByte) hst
    · exact .waits
  | rxSkip b =>
    obtain ⟨hne, hst, hb, rfl⟩ | rfl := Block.execRxSkip_next h
    · exact .skips b hne hst hb
    · exact .waits
  | rxSlave b =>
    obtain ⟨hst, hb, rfl⟩ | rfl := Block.execRxSlave_next h
    · exact .grows _ _ hb rfl rfl (Block.presented_eq_none (by simp [hst])) rfl fun _ =>
        Block.candidateBytes_rxSlave (s := s.rxTake b) hst
    · exact .waits
  | rxCmd b =>
    obtain ⟨hst, hb, rfl⟩ | rfl := Block.execRxCmd_next h
    · exact .grows _ _ hb rfl rfl (Block.presented_eq_none (by simp [hst])) rfl fun _ =>
        Block.candidateBytes_rxCmd (s := s.rxTake b) hst
    · exact .waits
  | rxLen b =>
    obtain ⟨hst, hb, rfl⟩ | rfl := Block.execRxLen_next h
    · exact .grows _ _ hb rfl rfl (Block.presented_eq_none (by simp [hst])) (Block.presented_payload rfl) fun _ =>
        Block.candidateBytes_rxLen (s := s.rxTake b) hst
    · exact .waits
  | rxData b =>
    obtain ⟨hst, hb, -, rfl⟩ | rfl := Block.execRxData_next h
    · exact .grows _ _ hb rfl rfl (Block.presented_eq_none (by simp [hst])) (Block.presented_payload rfl) fun hwf =>
        Block.candidateBytes_rxData (s := s.rxTake b) hwf hst
    · exact .waits
  | rxCksh b =>
    obtain ⟨hst, hb, rfl⟩ | rfl := Block.execRxCksh_next h
    · exact .grows _ _ hb rfl rfl (Block.presented_eq_none (by simp [hst])) rfl fun _ =>
        Block.candidateBytes_rxCksh (s := s.rxTake b) hst
    · exact .waits
  | rxCksl b =>
    obtain ⟨hst, hb, rfl⟩ | rfl := Block.execRxCksl_next h
    · exact .grows _ _ hb rfl rfl (Block.presented_eq_none (by simp [hst])) rfl fun _ =>
        Block.candidateBytes_rxCksl (s := s.rxTake b) hst
    · exact .waits
  | rxEof =>
    obtain ⟨hst, hb, rfl⟩ | rfl := Block.execRxEof_next h
    · exact .judges endByte hst hb
    · exact .waits
  | rxEofBad e =>
    obtain ⟨he, hst, hb, rfl⟩ | rfl := Block.execRxEofBad_next h
    · rw [← Block.judged_bad he m]
      exact .judges e hst hb
    · exact .waits
  | rxAccept =>
    obtain ⟨hst, -, rfl⟩ | rfl := Block.execRxAccept_next h
    · exact .hands hst
    · exact .waits
  | txEnc | txByte | cks | cksCheck | reset => cases hi

end DecoderEffects

/-! ### The packets that leave -/

/-- R36, R75, R77: the one packet an operation can hand off is the presented one, which VALIDATE has admitted. -/
theorem OnlyAdmitted.of_execAt {m : AddrMode} {i : Instr} {s t : Block} (hinv : Inv ⟨s, m⟩) (hs : OnlyAdmitted ⟨s, m⟩)
    (h : execAt m i s = .next t) : OnlyAdmitted ⟨t, m⟩ := by
  intro p hp
  obtain ⟨es, hhist, hrec, -⟩ := execAt_eventsFrom h
  rw [hhist] at hp
  obtain hp | hp := List.mem_append.1 hp
  · exact hs p hp
  · obtain ⟨-, hpres⟩ := hrec _ hp
    obtain ⟨hst, rfl⟩ := Block.presented_eq_some.1 hpres
    obtain ⟨-, haddr, -⟩ := verdict_eq_none.1 (hinv.emit_ok hst)
    exact ⟨haddr, Memory.length_slice _ _⟩

/-- Settles O53: only RX.ACCEPT hands a packet off, and the invariant says that it was admitted. -/
theorem onlyAdmittedPacketsLeave : Obligations.OnlyAdmittedPacketsLeave :=
  fun _ _ => step_keeps (fun _ _ _ _ _ _ _ h => h) fun _ _ _ _ => OnlyAdmitted.of_execAt

/-! ### The order of the input -/

theorem takenBytes_append (h es : List Event) : takenBytes (h ++ es) = takenBytes h ++ takenBytes es :=
  List.filterMap_append ..

theorem outcomes_append (h es : List Event) : outcomes (h ++ es) = outcomes h ++ outcomes es :=
  List.filterMap_append ..

/-- The encoder takes no input byte. -/
theorem takenBytes_eq_nil {es : List Event} (h : ∀ e ∈ es, e.isEncoder = true) : takenBytes es = [] := by
  refine List.filterMap_eq_nil_iff.2 fun e he => ?_
  have := h e he
  cases e <;> simp_all [Event.isEncoder]

/-- The encoder decides on no candidate frame. -/
theorem outcomes_eq_nil {es : List Event} (h : ∀ e ∈ es, e.isEncoder = true) : outcomes es = [] := by
  refine List.filterMap_eq_nil_iff.2 fun e he => ?_
  have := h e he
  cases e <;> simp_all [Event.isEncoder]

/-- What the input has come to: the bytes taken, then those still in the stream (R34). -/
def Block.input (s : Block) : List Byte := takenBytes s.hist ++ s.rxIn

section Input
variable {m : AddrMode} {s t : Block} {b : Byte}

/-- R75: what VALIDATE records is no byte taken. -/
theorem Block.judged_input (m : AddrMode) (s : Block) (e : Byte) : (s.judged m e).input = s.input := by
  obtain ⟨-, hj⟩ | ⟨r, -, hj⟩ := s.judged_cases m e
  · rw [hj]
    rfl
  · simp [hj, Block.input, takenBytes]

/-- R34: taking the head byte moves it from the stream to the bytes taken. -/
theorem Block.input_take (hb : s.rxIn.head? = some b) (hin : t.rxIn = s.rxIn.tail)
    (hhist : t.hist = s.hist ++ [.rxTake b]) : t.input = s.input := by
  obtain ⟨rest, hrest⟩ := List.head?_eq_some_iff.1 hb
  simp [Block.input, hin, hhist, hrest, takenBytes]

/-- R34: no operation of the decoder loses, repeats or reorders an input byte. -/
theorem DecoderEffect.input (h : DecoderEffect m s t) : t.input = s.input := by
  cases h with
  | waits => rfl
  | skips b _ _ hb => exact Block.input_take hb rfl rfl
  | grows b _ hb hin hhist => exact Block.input_take hb hin hhist
  | judges e _ hb => exact (Block.judged_input m _ e).trans (Block.input_take hb rfl rfl)
  | hands => simp [Block.input, takenBytes]

/-- R34, R93: and no other operation touches the input. -/
theorem execAt_input {i : Instr} (h : execAt m i s = .next t) : t.input = s.input := by
  cases hdec : isDecoderOp i with
  | true => exact (execAt_decoder_effect hdec h).input
  | false =>
    by_cases hreset : i = .reset
    · subst hreset
      cases h
      simp [Block.input, takenBytes]
    · obtain ⟨es, hhist, henc⟩ := execAt_encoder_events hdec hreset h
      have hin : t.rxIn = s.rxIn := (congrArg Block.rxIn (execAt_keeps_decoder hdec hreset h) :)
      simp [Block.input, hhist, hin, takenBytes_append, takenBytes_eq_nil henc]

end Input

/-- Settles O48: an operation leaves the input as it is, a move of the environment only appends to it. -/
theorem inputConsumedInOrder : Obligations.InputConsumedInOrder := by
  intro s t h
  obtain ⟨-, ts, es, ⟨i, he⟩ | rfl | ⟨bs, hb, rfl⟩ | ⟨r, -, rfl⟩ | ⟨x, rfl⟩ | ⟨x, rfl⟩⟩ := step_next h
  · obtain ⟨he, -⟩ := exec_next.1 he
    exact .inl (execAt_input he :)
  · exact .inl rfl
  · exact .inr ⟨bs, hb, rfl, rfl⟩
  all_goals exact .inl rfl

/-! ### The bytes on the wire -/

/-- The bytes of the frame in transmission that are still to come, none in IDLE. -/
def Block.txDue (s : Block) : List Byte := if s.txState = .send then s.txFrame.drop s.txPos else []

theorem wireExact_iff {s : Block} {m : AddrMode} : WireExact ⟨s, m⟩ ↔ wireDue s.hist = some s.txDue := Iff.rfl

theorem wireDue_append (h es : List Event) : wireDue (h ++ es) = es.foldl wireStep (wireDue h) :=
  List.foldl_append ..

/-- R38: the listener on the wire hears nothing of the decoder. -/
theorem foldl_wireStep_decoder {es : List Event} (hes : ∀ e ∈ es, e.isDecoder = true) (due : List Byte) :
    es.foldl wireStep (some due) = some due := by
  induction es with
  | nil => rfl
  | cons e es ih =>
    obtain ⟨he, hes⟩ := List.forall_mem_cons.1 hes
    have hstep : wireStep (some due) e = some due := by
      cases e with
      | rxTake | discard | pktOut => cases due <;> rfl
      | encAccept | txOut | reset => cases he
    rw [List.foldl_cons, hstep, ih hes]

/-- R65: the frame in transmission has seven bytes beside its payload. -/
theorem Block.length_txFrame (s : Block) : s.txFrame.length = 7 + s.txLen.toNat := by
  simp +arith [Block.txFrame, encodeFrame, Block.txPayload]

/-- R63: once the byte at `tx_pos` is sent the ones after it are due, none after the last. -/
theorem Block.txDue_sent (s : Block) (b : Byte) :
    Block.txDue { s.txPut b with
      txPos := s.txPos + 1
      txState := if s.txPos + 1 = 7 + s.txLen.toNat then .idle else .send } = s.txFrame.drop (s.txPos + 1) := by
  by_cases hlast : s.txPos + 1 = 7 + s.txLen.toNat
  · rw [List.drop_eq_nil_of_le (by rw [s.length_txFrame, hlast]), Block.txDue, if_pos hlast]
    rfl
  · rw [Block.txDue, if_neg hlast]
    rfl

section Wire
variable {m : AddrMode} {s t : Block}

/-- R60, R61: TX.ENC is taken in IDLE only, when no byte is due, and then the whole frame of the request is. -/
theorem WireExact.of_execTxEnc {slave cmd : Byte} {data : List Byte} (hinv : Inv ⟨s, m⟩) (hs : WireExact ⟨s, m⟩)
    (h : s.execTxEnc slave cmd data = .next t) : WireExact ⟨t, m⟩ := by
  obtain ⟨hlen, hidle, -, rfl⟩ | rfl := Block.execTxEnc_next h
  · have hnone : wireDue s.hist = some [] := by
      rw [wireExact_iff.1 hs, Block.txDue, hidle]
      rfl
    have hframe : encodeFrame slave cmd (Memory.slice (Memory.load s.txData 0 data) (lenByte data).toNat) =
        encodeFrame slave cmd data := by
      rw [Memory.slice_latched hinv.txData_wf hlen]
    rw [wireExact_iff, Block.record_hist, wireDue_append, hnone]
    exact congrArg some hframe.symm
  · exact hs

/-- R63, R65: TX.BYTE sends the first of the bytes due; after the last one none is due. -/
theorem WireExact.of_execTxByte (hinv : Inv ⟨s, m⟩) (hs : WireExact ⟨s, m⟩) (h : s.execTxByte = .next t) :
    WireExact ⟨t, m⟩ := by
  obtain ⟨b, hsend, -, hb, rfl⟩ | rfl := Block.execTxByte_next h
  · have hbyte : s.txFrame[s.txPos]? = some b := (Block.frameByte_eq_txFrame hinv hsend _).symm.trans hb
    obtain ⟨hlt, hget⟩ := List.getElem?_eq_some_iff.1 hbyte
    have hdue : wireDue s.hist = some (b :: s.txFrame.drop (s.txPos + 1)) := by
      rw [wireExact_iff.1 hs, Block.txDue, if_pos hsend, List.drop_eq_getElem_cons hlt, hget]
    rw [wireExact_iff, Block.txDue_sent, Block.txPut_hist, wireDue_append, hdue]
    simp [wireStep]
  · exact hs

/-- R35, R61, R97: every operation keeps the listener's account: the decoder and the checksum ports say nothing on the
wire, and a RESET cuts the frame in transmission short. -/
theorem WireExact.of_execAt {i : Instr} (hinv : Inv ⟨s, m⟩) (hs : WireExact ⟨s, m⟩) (h : execAt m i s = .next t) :
    WireExact ⟨t, m⟩ := by
  cases hdec : isDecoderOp i with
  | true =>
    obtain ⟨es, hhist, hes⟩ := execAt_decoder_events hdec h
    have htx : t.txDue = s.txDue := (congrArg Block.txDue (execAt_decoder_frame hdec h) :)
    rw [wireExact_iff, hhist, wireDue_append, wireExact_iff.1 hs, foldl_wireStep_decoder hes, htx]
  | false =>
    cases i with
    | txEnc slave cmd data => exact hs.of_execTxEnc hinv h
    | txByte => exact hs.of_execTxByte hinv h
    | cks slave cmd len data =>
      cases Block.execCks_next h
      exact hs
    | cksCheck slave cmd len data cand =>
      cases Block.execCksCheck_next h
      exact hs
    | reset =>
      rw [wireExact_iff, execAt_reset_hist h, wireDue_append, wireExact_iff.1 hs]
      cases h
      cases s.txDue <;> rfl
    | _ => cases hdec

end Wire

/-- Settles O54: every operation keeps the listener's account, which reads nothing of the environment. -/
theorem wireIsAcceptedFrames : Obligations.WireIsAcceptedFrames :=
  fun _ _ => step_keeps (fun _ _ _ _ _ _ _ h => h) fun _ _ _ _ => WireExact.of_execAt

/-! ### The decoder and DECODE -/

theorem sinceReset_append (h : List Event) {es : List Event} (hes : ∀ e ∈ es, e ≠ .reset) :
    sinceReset (h ++ es) = sinceReset h ++ es := by
  induction es generalizing h with
  | nil => simp
  | cons e es ih =>
    obtain ⟨he, hes⟩ := List.forall_mem_cons.1 hes
    have hone : sinceReset (h ++ [e]) = sinceReset h ++ [e] := by simp [sinceReset, he]
    rw [List.append_cons, ih _ hes, hone, List.append_assoc, List.singleton_append]

/-- R97: a reset starts the account afresh. -/
theorem sinceReset_reset (h : List Event) : sinceReset (h ++ [.reset]) = [] := by
  simp [sinceReset]

/-- The bytes taken since the last reset. -/
def Block.taken (s : Block) : List Byte := takenBytes (sinceReset s.hist)

/-- The outcomes recorded since the last reset. -/
def Block.recorded (s : Block) : List FrameOut := outcomes (sinceReset s.hist)

/-- The outcomes recorded since the last reset, then the packet still presented. -/
def Block.decided (s : Block) : List FrameOut := s.recorded ++ (s.presented.map FrameOut.pkt).toList

theorem decoderExact_iff {s : Block} {m : AddrMode} :
    DecoderExact ⟨s, m⟩ ↔ ∃ done : List Byte,
      s.taken = done ++ s.candidateBytes ∧ decodeStream m done = (s.decided, .seekStart) := Iff.rfl

section Decode
variable {m : AddrMode} {s t : Block}

/-- DECODE goes on from the bytes done to more of them, which it brings to the outcomes `os`. -/
theorem decodeStream_more {done more : List Byte} {ds os : List FrameOut}
    (hdone : decodeStream m done = (ds, .seekStart)) (hmore : decodeStream m more = (os, .seekStart)) :
    decodeStream m (done ++ more) = (ds ++ os, .seekStart) := by
  rw [decodeStream_append (by rw [hdone]), hdone, hmore]

/-- What becomes of the candidate frame once the end byte `e` is taken (R79). -/
def Block.outcome (m : AddrMode) (s : Block) (e : Byte) : FrameOut :=
  frameOutcome m s.rxSlave s.rxCmd s.rxLen s.rxPayload s.rxCks e

theorem Block.outcome_admitted {e : Byte} (h : s.verdict m e = none) : s.outcome m e = .pkt s.candidate := by
  rw [Block.verdict] at h
  rw [Block.outcome, frameOutcome, h]
  rfl

theorem Block.outcome_discarded {e : Byte} {r : Reason} (h : s.verdict m e = some r) : s.outcome m e = .disc r := by
  rw [Block.verdict] at h
  rw [Block.outcome, frameOutcome, h]

/-- R79: DECODE brings the candidate frame, with its end byte, to the outcome of VALIDATE's checks. -/
theorem decodeStream_candidate (hst : s.rxState = .validate) (e : Byte) :
    decodeStream m (s.candidateBytes ++ [e]) =
      ([s.outcome m e], .seekStart) := by
  have hf := frame_complete m s.rxSlave s.rxCmd s.rxLen (hi s.rxCks) (lo s.rxCks) e s.rxPayload []
    (Memory.length_slice _ _)
  rw [join_hi_lo] at hf
  simp [Block.candidateBytes, Block.outcome, hst, decodeStream_frame hf]

theorem Block.taken_append {es : List Event} (hhist : t.hist = s.hist ++ es) (hes : ∀ e ∈ es, e ≠ .reset) :
    t.taken = s.taken ++ takenBytes es := by
  rw [Block.taken, hhist, sinceReset_append _ hes, takenBytes_append, Block.taken]

theorem Block.recorded_append {es : List Event} (hhist : t.hist = s.hist ++ es) (hes : ∀ e ∈ es, e ≠ .reset) :
    t.recorded = s.recorded ++ outcomes es := by
  rw [Block.recorded, hhist, sinceReset_append _ hes, outcomes_append, Block.recorded]

/-- The decoder goes on agreeing with DECODE when it has taken the bytes `bs` and decided on `os`, if DECODE brings
`more`, the part of the candidate frame that is then done with, to `os` as well. -/
theorem DecoderExact.extend {bs more : List Byte} {os : List FrameOut} (hs : DecoderExact ⟨s, m⟩)
    (htaken : t.taken = s.taken ++ bs) (hcand : s.candidateBytes ++ bs = more ++ t.candidateBytes)
    (hmore : decodeStream m more = (os, .seekStart)) (hdecided : t.decided = s.decided ++ os) :
    DecoderExact ⟨t, m⟩ := by
  obtain ⟨done, hdone, hdecode⟩ := decoderExact_iff.1 hs
  refine decoderExact_iff.2 ⟨done ++ more, ?_, ?_⟩
  · rw [htaken, hdone, List.append_assoc, hcand, List.append_assoc]
  · rw [hdecided]
    exact decodeStream_more hdecode hmore

/-- R79: the outcome of VALIDATE's checks is recorded, or presented. -/
theorem Block.decided_judged (hst : s.rxState ≠ .emit) (e : Byte) :
    (s.judged m e).decided = s.decided ++ [s.outcome m e] := by
  have hnone : s.presented = none := Block.presented_eq_none hst
  obtain ⟨hv, hj⟩ | ⟨r, hv, hj⟩ := s.judged_cases m e
  · have hpres : (s.judged m e).presented = some s.candidate := by rw [hj]; rfl
    have hrec : (s.judged m e).recorded = s.recorded := by rw [hj]; rfl
    simp [Block.decided, hnone, hpres, hrec, Block.outcome_admitted hv]
  · have hpres : (s.judged m e).presented = none := by rw [hj]; rfl
    have hrec : (s.judged m e).recorded = s.recorded ++ [.disc r] := by
      rw [hj]
      exact Block.recorded_append (s.discard_hist r) (by simp)
    simp [Block.decided, hnone, hpres, hrec, Block.outcome_discarded hv]

/-- After VALIDATE's checks nothing of the candidate frame is left to complete, and no further byte is taken. -/
theorem Block.judged_done (m : AddrMode) (s : Block) (e : Byte) :
    (s.judged m e).candidateBytes = [] ∧ (s.judged m e).taken = s.taken := by
  obtain ⟨-, hj⟩ | ⟨r, -, hj⟩ := s.judged_cases m e
  · rw [hj]
    exact ⟨rfl, rfl⟩
  · rw [hj]
    exact ⟨rfl, (Block.taken_append (s.discard_hist r) (by simp)).trans (List.append_nil _)⟩

theorem Block.taken_take {b : Byte} (hhist : t.hist = s.hist ++ [.rxTake b]) : t.taken = s.taken ++ [b] :=
  Block.taken_append hhist (by simp)

/-- Taking a byte decides on nothing, as long as no packet is presented before or after. -/
theorem Block.decided_take {b : Byte} (hhist : t.hist = s.hist ++ [.rxTake b]) (hs : s.presented = none)
    (ht : t.presented = none) : t.decided = s.decided ++ [] := by
  rw [Block.decided, Block.decided, Block.recorded_append hhist (by simp), hs, ht]
  simp [outcomes]

/-- R79: what each operation of the decoder takes and decides on is what DECODE does with the same bytes. -/
theorem DecoderExact.of_effect (hwf : Memory.wf s.stage = true) (hs : DecoderExact ⟨s, m⟩)
    (h : DecoderEffect m s t) : DecoderExact ⟨t, m⟩ := by
  cases h with
  | waits => exact hs
  | skips b hne hst _ =>
    have hcand : s.candidateBytes = [] := by rw [Block.candidateBytes, hst]
    refine hs.extend (bs := [b]) (more := [b]) (os := []) (Block.taken_take rfl) (by rw [hcand]; rfl) ?_
      (Block.decided_take rfl (Block.presented_eq_none (by simp [hst])) rfl)
    rw [decodeStream_skip m hne, decodeStream_nil]
  | grows b _ _ _ hhist hpres hpres' hgrow =>
    exact hs.extend (bs := [b]) (more := []) (os := []) (Block.taken_take hhist) (hgrow hwf).symm rfl
      (Block.decided_take hhist hpres hpres')
  | judges e hst _ =>
    have hne : s.rxState ≠ .emit := by simp [hst]
    obtain ⟨hcand, htaken⟩ := (s.rxTake e).judged_done m e
    refine hs.extend (bs := [e]) (htaken.trans (Block.taken_take rfl)) (by rw [hcand, List.append_nil])
      (decodeStream_candidate hst e) ?_
    have htake : (s.rxTake e).decided = s.decided ++ [] :=
      Block.decided_take rfl (Block.presented_eq_none hne) (Block.presented_eq_none hne)
    rw [Block.decided_judged (s := s.rxTake e) hne, htake, List.append_nil]
    rfl
  | hands hst =>
    have hpres : s.presented = some s.candidate := Block.presented_eq_some.2 ⟨hst, rfl⟩
    have hcand : s.candidateBytes = [] := by rw [Block.candidateBytes, hst]
    refine hs.extend (bs := []) (more := []) (os := []) (Block.taken_append (s.emit_hist s.candidate) (by simp))
      (by rw [hcand]; rfl) rfl ?_
    rw [Block.decided, Block.decided, Block.recorded_append (s := s) rfl (by simp), hpres]
    simp [outcomes, Block.presented]

/-- R38, R79, R97: an operation of another unit leaves the account as it is, and RESET starts it afresh. -/
theorem DecoderExact.of_execAt {i : Instr} (hinv : Inv ⟨s, m⟩) (hs : DecoderExact ⟨s, m⟩)
    (h : execAt m i s = .next t) : DecoderExact ⟨t, m⟩ := by
  cases hdec : isDecoderOp i with
  | true => exact hs.of_effect hinv.stage_wf (execAt_decoder_effect hdec h)
  | false =>
    by_cases hreset : i = .reset
    · subst hreset
      have hempty : sinceReset t.hist = [] := by rw [execAt_reset_hist h, sinceReset_reset]
      have hcand : t.candidateBytes = [] := by cases h; rfl
      have hpres : t.presented = none := by cases h; rfl
      refine decoderExact_iff.2 ⟨[], ?_, ?_⟩
      · simp [Block.taken, hempty, hcand, takenBytes]
      · simp [Block.decided, Block.recorded, hempty, hpres, outcomes]
    · obtain ⟨es, hhist, henc⟩ := execAt_encoder_events hdec hreset h
      have hes : ∀ e ∈ es, e ≠ .reset := by
        rintro e he rfl
        cases henc _ he
      have hkeep := execAt_keeps_decoder hdec hreset h
      have hcand : t.candidateBytes = s.candidateBytes := (congrArg Block.candidateBytes hkeep :)
      have hpres : t.presented = s.presented := (congrArg Block.presented hkeep :)
      refine hs.extend (bs := []) (more := []) (os := []) ?_ ?_ rfl ?_
      · rw [Block.taken_append hhist hes, takenBytes_eq_nil henc]
      · rw [hcand, List.append_nil, List.nil_append]
      · rw [Block.decided, Block.decided, Block.recorded_append hhist hes, outcomes_eq_nil henc, hpres, List.append_nil,
          List.append_nil]

end Decode

/-- Settles O55: every operation keeps the agreement, which reads nothing of the environment. -/
theorem decoderComputesDecode : Obligations.DecoderComputesDecode :=
  fun _ _ => step_keeps (fun _ _ _ _ _ _ _ h => h) fun _ _ _ _ => DecoderExact.of_execAt

end Sys2Proof.Machine

/-! ## Selecting an operation, the byte map and the frame's bytes (spec/30_encoding.md) -/

namespace Sys2Proof.Machine

/-! ### Selectors and operations -/

/-- R49, R50: the selector of a well-formed operation selects it. Well-formedness keeps RX.SKIP and RX.EOF_BAD off the
byte that has priority, and holds the length conditions of the ports. -/
theorem decode_encode (i : Instr) (hwf : i.wellFormed = true) : decode (encode i) = .ok i := by
  cases i with
  | rxSof | rxSlave | rxCmd | rxLen | rxData | rxCksh | rxCksl | rxEof | rxAccept | txByte | reset => rfl
  | rxSkip | rxEofBad => exact if_neg (bne_iff_ne.1 hwf)
  | txEnc | cks | cksCheck => exact if_pos (of_decide_eq_true hwf)

/-- Settles O2: the round trip from an operation. -/
theorem decodeOfEncode : Obligations.DecodeOfEncode :=
  decode_encode

/-- Settles O1: each selector is the one of a well-formed operation. -/
theorem specSelectorsDecode : Obligations.SpecSelectorsDecode :=
  ⟨decode_encode .rxSof rfl, decode_encode (.rxSkip 0x0D) rfl, decode_encode (.rxSlave 0x3A) rfl,
    decode_encode (.rxLen 0x00) rfl, decode_encode (.rxData 0x0D) rfl, decode_encode .rxEof rfl,
    decode_encode (.rxEofBad 0x3A) rfl, decode_encode .rxAccept rfl,
    decode_encode (.txEnc 3 1 [0x2A]) rfl⟩

/-- A port that asks for a condition selects its operation only under it. -/
theorem guarded_eq_ok {p : Prop} [Decidable p] {i j : Instr} {r : Reject}
    (h : (if p then Except.ok j else .error r) = .ok i) : p ∧ i = j := by
  split at h
  · exact ⟨‹_›, by cases h; rfl⟩
  · cases h

/-- R49: the byte map selects a well-formed operation whose selector is that state and byte. -/
theorem decodeByte_eq_ok {st : RxState} {b : Byte} {i : Instr} (h : decodeByte st b = .ok i) :
    i.wellFormed = true ∧ encode i = .byte st b := by
  cases st with
  | seekStart | validate =>
    rw [decodeByte] at h
    split at h <;> cases h
    · subst b
      exact ⟨rfl, rfl⟩
    · exact ⟨bne_iff_ne.2 ‹_›, rfl⟩
  | hdrSlave | hdrCmd | hdrLen | payload | cksHi | cksLo =>
    cases h
    exact ⟨rfl, rfl⟩
  | emit => cases h

/-- Settles O3: the byte map's rows, then the ports, of which three ask for a length. -/
theorem encodeOfDecode : Obligations.EncodeOfDecode := by
  intro sel i h
  cases sel with
  | byte => exact decodeByte_eq_ok h
  | packetAccept | sinkReady | resetPort =>
    cases h
    exact ⟨rfl, rfl⟩
  | encodeRequest | checksumPort | checkPort =>
    obtain ⟨hlen, rfl⟩ := guarded_eq_ok h
    exact ⟨decide_eq_true hlen, rfl⟩

/-! ### The rows of the byte map -/

/-- R49: a byte step that goes on as `f` says takes its byte from the head of the stream and does so. -/
theorem exec_of_onByte {s : State} {i : Instr} {st : RxState} {b : Byte} {rest : List Byte} {f : Block → Block}
    (hst : s.rxState = st) (hin : s.rxIn = b :: rest)
    (hi : execAt s.addrMode i s.toBlock = onByte st b (fun u => .next (f u)) s.toBlock) :
    exec i s = .next ⟨f (s.rxTake b), s.addrMode⟩ :=
  exec_next.2 ⟨hi.trans (onByte_enabled hst (by rw [hin]; rfl)), rfl⟩

/-- R72: RX.DATA stores the byte it takes, provided that the cell `rx_idx` exists. -/
theorem exec_rxData {s : State} {b : Byte} {rest : List Byte} (hst : s.rxState = .payload) (hin : s.rxIn = b :: rest)
    (hidx : s.rxIdx < maxLen) :
    exec (.rxData b) s = .next ⟨{ s.rxTake b with
      stage := Memory.write s.stage s.rxIdx b
      rxIdx := s.rxIdx + 1
      rxState := if s.rxIdx + 1 = s.rxLen.toNat then .cksHi else .payload }, s.addrMode⟩ := by
  rw [exec_next, execAt, Block.execRxData, onByte_enabled hst (by rw [hin]; rfl)]
  exact ⟨if_pos hidx, rfl⟩

/-- R75: VALIDATE's checks take no byte. -/
@[simp] theorem Block.judged_rxIn (m : AddrMode) (s : Block) (e : Byte) : (s.judged m e).rxIn = s.rxIn := by
  obtain ⟨-, hj⟩ | ⟨r, -, hj⟩ := s.judged_cases m e <;> rw [hj]
  rfl

/-- R75: once the right end byte is taken, the candidate goes to EMIT exactly when it passes the address filter and the
checksum. -/
theorem Block.judged_rxTake_rxState (m : AddrMode) (s : Block) (b : Byte) :
    ((s.rxTake b).judged m endByte).rxState =
      if addrOk m s.rxSlave = true ∧ cks s.rxSlave s.rxCmd s.rxLen (Memory.slice s.stage s.rxLen.toNat) = s.rxCks
      then .emit else .seekStart := by
  have hpass : (s.rxTake b).verdict m endByte = none ↔
      addrOk m s.rxSlave = true ∧ cks s.rxSlave s.rxCmd s.rxLen (Memory.slice s.stage s.rxLen.toNat) = s.rxCks :=
    verdict_eq_none.trans (and_iff_right rfl)
  obtain ⟨hv, hj⟩ | ⟨r, hv, hj⟩ := (s.rxTake b).judged_cases m endByte
  · rw [hj, if_pos (hpass.1 hv)]
  · have hfail : ¬ _ := hpass.not.1 (Option.ne_none_iff_exists'.2 ⟨r, hv⟩)
    rw [hj, if_neg hfail, Block.discard_rxState]

/-- R77: an accepting packet sink takes the packet in EMIT. -/
theorem exec_rxAccept {s : State} (hst : s.rxState = .emit) (hready : s.pktReady = true) :
    exec .rxAccept s = .next ⟨{ s.emit s.candidate with rxState := .seekStart }, s.addrMode⟩ :=
  exec_next.2 ⟨if_pos ⟨hst, hready⟩, rfl⟩

/-- Settles O4, row by row: SEEK_START and VALIDATE have a row for their special byte and one for every other. -/
theorem byteMapIsTotal : Obligations.ByteMapIsTotal := by
  refine ⟨fun _ => rfl, fun s hst hready => ⟨_, exec_rxAccept hst hready, rfl, rfl⟩, ?_⟩
  intro s b rest hinv hne hin
  have htail : s.rxIn.tail = rest := by rw [hin]; rfl
  cases hst : s.rxState with
  | seekStart =>
    by_cases hb : b = 0x3A
    · subst hb
      refine ⟨.rxSof, _, rfl, exec_of_onByte hst hin (by rw [execAt]; rfl), ?_⟩
      simp [htail]
    · refine ⟨.rxSkip b, _, if_neg hb, exec_of_onByte hst hin (if_neg hb), ?_⟩
      simpa [htail] using hb
  | hdrSlave =>
    refine ⟨.rxSlave b, _, rfl, exec_of_onByte hst hin (by rw [execAt]; rfl), ?_⟩
    simp [htail]
  | hdrCmd =>
    refine ⟨.rxCmd b, _, rfl, exec_of_onByte hst hin (by rw [execAt]; rfl), ?_⟩
    simp [htail]
  | hdrLen =>
    refine ⟨.rxLen b, _, rfl, exec_of_onByte hst hin (by rw [execAt]; rfl), ?_⟩
    simp [htail]
  | payload =>
    refine ⟨.rxData b, _, rfl, exec_rxData hst hin (hinv.rxIdx_lt_maxLen hst), ?_⟩
    simp [htail]
  | cksHi =>
    refine ⟨.rxCksh b, _, rfl, exec_of_onByte hst hin (by rw [execAt]; rfl), ?_⟩
    simp [htail]
  | cksLo =>
    refine ⟨.rxCksl b, _, rfl, exec_of_onByte hst hin (by rw [execAt]; rfl), ?_⟩
    simp [htail]
  | validate =>
    by_cases hb : b = 0x0D
    · subst hb
      refine ⟨.rxEof, _, rfl, exec_of_onByte hst hin (by rw [execAt]; rfl), ?_⟩
      simp [htail, Block.judged_rxTake_rxState]
    · refine ⟨.rxEofBad b, _, if_neg hb, exec_of_onByte hst hin (if_neg hb), ?_⟩
      simpa [htail] using hb
  | emit => exact absurd hst hne

/-! ### The bytes of a frame -/

/-- R41: a frame has seven bytes beside its payload. -/
theorem length_encodeFrame (slave cmd : Byte) (data : List Byte) :
    (encodeFrame slave cmd data).length = 7 + data.length := by
  simp +arith [encodeFrame]

/-- R41: after the four header bytes come the payload, the checksum and the end byte. -/
theorem getElem?_encodeFrame_add_four (slave cmd : Byte) (data : List Byte) (i : Nat) :
    (encodeFrame slave cmd data)[4 + i]? =
      (data ++ [hi (cks slave cmd (lenByte data) data), lo (cks slave cmd (lenByte data) data), endByte])[i]? := by
  rw [Nat.add_comm]
  rfl

/-- R42: the bytes after the payload. -/
theorem getElem?_encodeFrame_trailer (slave cmd : Byte) (data : List Byte) (k : Nat) :
    (encodeFrame slave cmd data)[4 + (data.length + k)]? =
      [hi (cks slave cmd (lenByte data) data), lo (cks slave cmd (lenByte data) data), endByte][k]? := by
  rw [getElem?_encodeFrame_add_four, List.getElem?_append_right (Nat.le_add_right _ _), Nat.add_sub_cancel_left]

/-- Settles O27: the header can be read off, the payload and the trailer follow it. -/
theorem frameLayout : Obligations.FrameLayout := by
  intro slave cmd data _
  have htrailer := getElem?_encodeFrame_trailer slave cmd data
  refine ⟨length_encodeFrame slave cmd data, rfl, rfl, rfl, rfl, fun i hlt => ?_, htrailer 0, ?_, ?_⟩
  · rw [getElem?_encodeFrame_add_four, List.getElem?_append_left hlt]
  · rw [show 5 + data.length = 4 + (data.length + 1) by omega, htrailer]
    rfl
  · rw [show 6 + data.length = 4 + (data.length + 2) by omega, htrailer]
    rfl

/-! ### The ports and the step -/

/-- Settles O21: with data of the right length both ports answer. -/
theorem checksumPortsAnswer : Obligations.ChecksumPortsAnswer :=
  fun _ _ _ _ _ _ hlen => ⟨exec_next.2 ⟨if_pos hlen, rfl⟩, exec_next.2 ⟨if_pos hlen, rfl⟩⟩

/-- A turn that runs an operation runs that operation of the machine, at the machine's mode. -/
theorem step_of_run {s : State} {i : Instr} {u : Block} (h : nextTurn s.toBlock = .run i u) :
    step s = exec i ⟨u, s.addrMode⟩ := by
  rw [step_eq, exec_eq, State.atMode, State.atMode, stepAt, h]

/-- R93: the decoder's operation runs on its turn, or with no turn listed, when the decoder goes first (log 5). -/
theorem nextTurn_decoder {s : Block} {ts : List Turn} {i : Instr}
    (hturns : s.turns = .decoder :: ts ∨ (s.turns = [] ∧ ts = [])) (hop : decoderOp s = some i) :
    nextTurn s = .run i { s with turns := ts } := by
  have hrun : takeTurn .decoder { s with turns := ts } = .run i { s with turns := ts } :=
    (congrArg (runOr · { s with turns := ts }) hop :)
  obtain hturns | ⟨hturns, rfl⟩ := hturns
  · rw [nextTurn_cons hturns, hrun]
  · have hturn : defaultTurn s = .decoder := by simp [defaultTurn, hop]
    rw [← hturns] at hrun ⊢
    rw [nextTurn_nil hturns, hturn, hrun]

/-- Settles O36: a byte that selects an operation makes it the decoder's, which runs on its turn. -/
theorem stepRunsSelectedByte : Obligations.StepRunsSelectedByte := by
  intro s b rest ts i hturns hin hdec
  have hne : s.rxState ≠ .emit := by
    intro hst
    rw [hst] at hdec
    cases hdec
  have hop : decoderOp s.toBlock = some i := by
    rw [decoderOp_byte hne hin, hdec]
    rfl
  exact step_of_run (nextTurn_decoder hturns hop)

/-- R93: the environment's turn uses up its next move. -/
theorem nextTurn_environment {s : Block} {ts : List Turn} {m : EnvMove} {rest : List EnvMove}
    (hturns : s.turns = .environment :: ts) (henv : s.env = m :: rest) :
    nextTurn s = envMove m { s with turns := ts, env := rest } := by
  rw [nextTurn_cons hturns, takeTurn, envTurn, henv]

/-- R50: the selector of a well-formed operation, brought to its port, runs it. -/
theorem atPort_encode (i : Instr) (hwf : i.wellFormed = true) (s : Block) : atPort (encode i) s = .run i s := by
  rw [atPort, decode_encode i hwf]

/-- Settles O38: a line's move changes its own field, and a port's move runs the port's operation. -/
theorem environmentMoves : Obligations.EnvironmentMoves := by
  intro s m rest ts hturns henv u
  have hmove : nextTurn s.toBlock = envMove m u.toBlock := nextTurn_environment hturns henv
  refine ⟨?_, ?_, ?_, ?_, ?_, ?_, ?_⟩
  · rintro bs rfl
    exact step_of_moved hmove
  · rintro r rfl hlen
    exact step_of_moved (hmove.trans (if_pos hlen))
  · rintro x rfl
    exact step_of_moved hmove
  · rintro x rfl
    exact step_of_moved hmove
  · rintro rfl
    exact step_of_run (hmove.trans (atPort_encode .reset rfl _))
  · rintro slave cmd len data rfl hlen
    exact step_of_run (hmove.trans (atPort_encode (.cks slave cmd len data) (decide_eq_true hlen) _))
  · rintro slave cmd len data cand rfl hlen
    exact step_of_run (hmove.trans (atPort_encode (.cksCheck slave cmd len data cand) (decide_eq_true hlen) _))

end Sys2Proof.Machine

/-! ## The checksum ports and their laws (spec/40_checksum.md) -/

namespace Sys2Proof.Machine

/-! ### The checksum and its ports -/

/-- R52: the exact sum, with the two constants written out. -/
theorem exactSum_eq (slave cmd len : Byte) (data : List Byte) :
    exactSum slave cmd len data =
      0x3A + slave.toNat + cmd.toNat + len.toNat + 0x0D + (data.map BitVec.toNat).sum := rfl

/-- R53: the validator is equality with the checksum. -/
theorem cksCheck_eq_true {slave cmd len : Byte} {data : List Byte} {cand : Word} :
    cksCheck slave cmd len data cand = true ↔ cks slave cmd len data = cand :=
  beq_iff_eq

theorem cksCheck_eq_false {slave cmd len : Byte} {data : List Byte} {cand : Word} :
    cksCheck slave cmd len data cand = false ↔ cks slave cmd len data ≠ cand :=
  beq_eq_false_iff_ne

/-- Settles O20: the checksum is the exact sum modulo 65536, and the validator is equality with it. -/
theorem checksumFormula : Obligations.ChecksumFormula :=
  fun slave cmd len data _ _ => ⟨cks_toNat slave cmd len data, cksCheck_eq_true⟩

/-- A refusal of the step relation is the machine's own. -/
theorem exec_refused {i : Instr} {s : State} {r : Refusal} (h : execAt s.addrMode i s.toBlock = .refused r) :
    exec i s = .refused r := by
  rw [exec_eq, State.atMode, h]
  rfl

/-- Settles O22: with data of another length both ports refuse. -/
theorem wrongLengthRefused : Obligations.WrongLengthRefused :=
  fun _ _ _ _ _ _ hlen => ⟨exec_refused (if_neg hlen), exec_refused (if_neg hlen)⟩

/-! ### Range and wrap-around (R54) -/

/-- R54: the two constants alone come to 71. -/
theorem le_exactSum (slave cmd len : Byte) (data : List Byte) : 71 ≤ exactSum slave cmd len data := by
  rw [exactSum_eq]
  omega

/-- R54: slave, command and each of `len` payload bytes add at most 255. -/
theorem exactSum_le {slave cmd len : Byte} {data : List Byte} (hlen : data.length = len.toNat) :
    exactSum slave cmd len data ≤ 71 + 2 * 255 + len.toNat + 255 * len.toNat := by
  have hslave := slave.isLt
  have hcmd := cmd.isLt
  have hdata := sum_bytes_le data
  rw [hlen] at hdata
  rw [exactSum_eq]
  omega

/-- The exact sum of a payload that repeats one byte. -/
theorem exactSum_replicate (slave cmd len b : Byte) (n : Nat) :
    exactSum slave cmd len (List.replicate n b) =
      0x3A + slave.toNat + cmd.toNat + len.toNat + 0x0D + n * b.toNat := by
  rw [exactSum_eq, List.map_replicate, List.sum_replicate_nat]

/-- Settles O23: the bounds of the exact sum at the largest length, and at 253. -/
theorem checksumRange : Obligations.ChecksumRange := by
  refine ⟨rfl, exactSum_replicate .., exactSum_replicate .., fun slave cmd len data hlen => ?_⟩
  have hmin := le_exactSum slave cmd len data
  have hmax := exactSum_le (slave := slave) (cmd := cmd) hlen
  have hmod := cks_toNat slave cmd len data
  have hlt := len.isLt
  have hvalue (n : Nat) (h : exactSum slave cmd len data = n) : cks slave cmd len data = BitVec.ofNat 16 n :=
    congrArg (BitVec.ofNat 16) h
  intro S
  have hS : exactSum slave cmd len data = S := exactSum_eq slave cmd len data
  rw [← hS]
  refine ⟨rfl, hmin, ?_, ?_, ?_, ?_, hvalue 65536, hvalue 65861, hvalue 65535⟩ <;> omega

/-! ### Order and corruption (R55, R56) -/

/-- Settles O24: equal header sums and rearranged payloads have the same exact sum. -/
theorem checksumIsOrderBlind : Obligations.ChecksumIsOrderBlind := by
  intro slave cmd len slave' cmd' len' data data' hheader hperm
  have hpayload : (data.map BitVec.toNat).sum = (data'.map BitVec.toNat).sum := (hperm.map _).sum_eq
  have hsum : exactSum slave cmd len data = exactSum slave' cmd' len' data' := by
    rw [exactSum_eq, exactSum_eq]
    omega
  exact congrArg (BitVec.ofNat 16) hsum

/-- R56: two bytes differ by less than 65536, so adding them to the same rest keeps them apart. -/
theorem ofNat_add_byte_injective (r : Nat) : Function.Injective fun b : Byte => BitVec.ofNat 16 (r + b.toNat) := by
  intro b b' h
  have hmod := congrArg BitVec.toNat h
  simp only [BitVec.toNat_ofNat] at hmod
  have hb := b.isLt
  have hb' := b'.isLt
  exact BitVec.eq_of_toNat_eq (by omega)

/-- R56: a sum to which one byte is an addend tells the values of that byte apart. -/
theorem cks_injective_of_addend {slave cmd len : Byte → Byte} {data : Byte → List Byte} (r : Nat)
    (h : ∀ b, exactSum (slave b) (cmd b) (len b) (data b) = r + b.toNat) :
    Function.Injective fun b => cks (slave b) (cmd b) (len b) (data b) := by
  simpa only [cks, h] using ofNat_add_byte_injective r

theorem cks_slave_injective (cmd len : Byte) (data : List Byte) :
    Function.Injective fun slave => cks slave cmd len data :=
  cks_injective_of_addend (exactSum 0#8 cmd len data) fun b => by
    simp only [exactSum_eq, BitVec.toNat_zero]
    omega

theorem cks_cmd_injective (slave len : Byte) (data : List Byte) :
    Function.Injective fun cmd => cks slave cmd len data :=
  cks_injective_of_addend (exactSum slave 0#8 len data) fun b => by
    simp only [exactSum_eq, BitVec.toNat_zero]
    omega

theorem cks_set_injective (slave cmd len : Byte) {data : List Byte} {k : Nat} (hk : k < data.length) :
    Function.Injective fun b => cks slave cmd len (data.set k b) :=
  cks_injective_of_addend (exactSum slave cmd len (data.set k 0#8)) fun b => by
    simp only [exactSum_eq, List.map_set, List.sum_set, List.length_map, if_pos hk, BitVec.toNat_zero]
    omega

/-- Settles O25: the checksum tells the values of each addend apart, and it has one value. -/
theorem singleByteCorruptionCaught : Obligations.SingleByteCorruptionCaught := by
  intro slave cmd len data cand hcheck
  obtain rfl := cksCheck_eq_true.1 hcheck
  refine ⟨fun x hx => ?_, fun x hx => ?_, fun k x hk hx => ?_, fun x hx => ?_⟩
  · exact cksCheck_eq_false.2 ((cks_slave_injective cmd len data).ne hx)
  · exact cksCheck_eq_false.2 ((cks_cmd_injective slave len data).ne hx)
  · have hne : x ≠ data[k] := fun h => hx (by rw [List.getElem?_eq_getElem hk, h])
    have hcks := (cks_set_injective slave cmd len hk).ne hne
    rw [List.set_getElem_self] at hcks
    exact cksCheck_eq_false.2 hcks
  · exact cksCheck_eq_false.2 hx.symm

/-! ### Running sums and groupings (R57) -/

/-- R57: bytes that are the addends in some order sum to the checksum modulo 65536. -/
theorem eq_cks_of_perm {slave cmd len : Byte} {data bs : List Byte} {w : Word}
    (hperm : bs.Perm (0x3A :: slave :: cmd :: len :: 0x0D :: data))
    (hw : w.toNat = (bs.map BitVec.toNat).sum % 65536) : w = cks slave cmd len data := by
  have hsum : (bs.map BitVec.toNat).sum = exactSum slave cmd len data := by
    rw [(hperm.map _).sum_eq, exactSum_eq]
    simp only [List.map_cons, List.sum_cons, BitVec.ofNat_eq_ofNat, BitVec.toNat_ofNat]
    omega
  exact BitVec.eq_of_toNat_eq (by rw [hw, hsum, cks_toNat])

/-- The running sum starts at 0 as well as at the start byte. -/
theorem runningSum_eq_foldl (bs : List Byte) :
    runningSum bs = (0x3A :: (bs ++ [0x0D])).foldl add16 0 := by
  rw [List.foldl_cons, List.foldl_append]
  rfl

/-- R57: any grouping comes to the sum of its bytes modulo 65536. -/
theorem Grouping.value_toNat (g : Grouping) : g.value.toNat = (g.bytes.map BitVec.toNat).sum % 65536 := by
  induction g with
  | byte b =>
    rw [Grouping.value, Grouping.bytes, List.map_singleton, List.sum_singleton, BitVec.toNat_setWidth]
  | plus l r ihl ihr =>
    rw [Grouping.value, Grouping.bytes, List.map_append, List.sum_append, BitVec.toNat_add, ihl, ihr, ← Nat.add_mod]

/-- Settles O26: a running sum and a grouping come to the sum of the addends modulo 65536, in whatever order. -/
theorem runningSumIsChecksum : Obligations.RunningSumIsChecksum := by
  intro slave cmd len data
  have hfold (bs : List Byte) (hperm : bs.Perm (0x3A :: slave :: cmd :: len :: 0x0D :: data)) :
      bs.foldl add16 0 = cks slave cmd len data :=
    eq_cks_of_perm hperm (by rw [foldl_add16_toNat, BitVec.ofNat_eq_ofNat, BitVec.toNat_zero, Nat.zero_add])
  refine ⟨?_, hfold, fun g hperm => eq_cks_of_perm hperm g.value_toNat⟩
  have hwire : (data ++ [0x0D]).Perm (0x0D :: data) := List.perm_append_singleton _ _
  rw [runningSum_eq_foldl]
  exact hfold _ ((((hwire.cons len).cons cmd).cons slave).cons 0x3A)

end Sys2Proof.Machine

/-! ## The encoder (spec/41_encoder.md): accepting a request, sending its frame, and the encoder's turn; that no step
faults; and the observers right after reset -/

namespace Sys2Proof.Machine

/-! ### The encoder's turn -/

section EncoderTurn
variable {s : Block} {k : Nat} {ts : List Turn}

/-- R60, R61: in IDLE the encoder's operation is to accept the presented request that its turn names. -/
theorem encoderOp_idle {r : Request} (hidle : s.txState = .idle) (hr : s.requests[k]? = some r) :
    encoderOp k s = some (.txEnc r.slave r.cmd r.data) := by
  simp [encoderOp, hidle, hr]

/-- R63: in SEND the encoder's operation is to hand the next byte to a ready sink. -/
theorem encoderOp_send (hsend : s.txState = .send) (hready : s.sinkReady = true) : encoderOp k s = some .txByte := by
  simp [encoderOp, hsend, hready, decode, Except.toOption]

/-- R93: the encoder's operation runs on its turn, or with no turn listed once the decoder has none (log 5). -/
theorem nextTurn_encoder {i : Instr}
    (hturns : s.turns = .encoder k :: ts ∨ (s.turns = [] ∧ ts = [] ∧ k = 0 ∧ decoderOp s = none))
    (hop : encoderOp k s = some i) : nextTurn s = .run i { s with turns := ts } := by
  have hrun : takeTurn (.encoder k) { s with turns := ts } = .run i { s with turns := ts } :=
    (congrArg (runOr · { s with turns := ts }) hop :)
  obtain hturns | ⟨hturns, rfl, rfl, hdec⟩ := hturns
  · rw [nextTurn_cons hturns, hrun]
  · have hturn : defaultTurn s = .encoder 0 := by simp [defaultTurn, hdec, hop]
    rw [← hturns] at hrun ⊢
    rw [nextTurn_nil hturns, hturn, hrun]

/-- A turn of an encoder with no operation uses up the turn only. -/
theorem nextTurn_encoder_waiting (hturns : s.turns = .encoder k :: ts) (hop : encoderOp k s = none) :
    nextTurn s = .moved { s with turns := ts } := by
  rw [nextTurn_cons hturns]
  exact congrArg (runOr · { s with turns := ts }) hop

end EncoderTurn

/-- Settles O37: in EMIT the decoder's operation is to hand off; the encoder's is the one its control state gives. -/
theorem stepRunsPortOperation : Obligations.StepRunsPortOperation := by
  intro s ts
  refine ⟨fun hturns hst hready => ?_, fun k hturns => ⟨fun r hidle hr => ?_, fun hsend hready => ?_⟩⟩
  · exact step_of_run (nextTurn_decoder hturns ((decoderOp_emit hst).trans (if_pos hready)))
  · exact step_of_run (nextTurn_encoder hturns (encoderOp_idle hidle hr))
  · exact step_of_run (nextTurn_encoder hturns (encoderOp_send hsend hready))

/-- A run of turns of an encoder with no operation uses up the turns only. -/
theorem run_encoder_waiting (n : Nat) {s : State} {k : Nat} {ts : List Turn} (hop : encoderOp k s.toBlock = none)
    (hturns : s.turns = List.replicate n (.encoder k) ++ ts) : core.run n s = .next { s with turns := ts } := by
  induction n generalizing s with
  | zero =>
    cases hturns
    rfl
  | succ n ih =>
    rw [List.replicate_succ, List.cons_append] at hturns
    rw [run_succ_next (M := core) n (step_of_moved (nextTurn_encoder_waiting hturns hop))]
    exact ih (s := { s with turns := List.replicate n (.encoder k) ++ ts }) hop rfl

/-- Settles O17: in SEND with the sink not ready the encoder has no operation, and waits. -/
theorem stalledSinkHoldsByte : Obligations.StalledSinkHoldsByte := by
  intro s hsend hready
  have hwait (k : Nat) : encoderOp k s.toBlock = none := encoderOp_waiting (by simpa [hsend] using hready) k
  have hdisabled : ¬ enabled .txByte s := by simp [enabled, hready]
  exact ⟨hwait, disabledOperationDoesNotMove .txByte s rfl hdisabled,
    fun n k ts => run_encoder_waiting n (s := { s with turns := List.replicate n (.encoder k) ++ ts }) (hwait k) rfl⟩

/-! ### Accepting a request -/

/-- The block once it has accepted `r`: the latch holds `r` and its checksum, and `r` is no longer presented (R60). -/
def Block.accepted (s : Block) (r : Request) : Block :=
  { s.record (.encAccept r.slave r.cmd r.data) with
    txSlave := r.slave
    txCmd := r.cmd
    txLen := lenByte r.data
    txData := Memory.load s.txData 0 r.data
    txCks := cks r.slave r.cmd (lenByte r.data) r.data
    txPos := 0
    txState := .send
    requests := s.requests.erase r }

/-- R60: TX.ENC accepts a presented request of at most 255 bytes in IDLE. -/
theorem exec_txEnc {s : State} {r : Request} (hlen : r.data.length ≤ maxLen) (hidle : s.txState = .idle)
    (hr : r ∈ s.requests) : exec (.txEnc r.slave r.cmd r.data) s = .next ⟨s.accepted r, s.addrMode⟩ := by
  rw [exec_next, execAt, Block.execTxEnc, if_neg (Nat.not_lt.2 hlen)]
  exact ⟨if_pos ⟨hidle, hr⟩, rfl⟩

/-- R60, R61: on the encoder's turn in IDLE the request that the turn names is accepted. -/
theorem step_accept {s : State} {k : Nat} {r : Request} {ts : List Turn} (hinv : Inv s)
    (hturns : s.turns = .encoder k :: ts) (hidle : s.txState = .idle) (hr : s.requests[k]? = some r) :
    step s = .next ⟨Block.accepted { s.toBlock with turns := ts } r, s.addrMode⟩ := by
  have hmem : r ∈ s.requests := List.mem_of_getElem? hr
  rw [step_of_run (nextTurn_encoder (.inl hturns) (encoderOp_idle hidle hr))]
  exact exec_txEnc (hinv.requests_legal r hmem) hidle hmem

/-- Settles O13: the latch holds the data in the cells below its length, and the length fits a byte. -/
theorem encodeAccept : Obligations.EncodeAccept := by
  intro s slave cmd data hinv hidle hr
  have hlen : data.length ≤ maxLen := hinv.requests_legal _ hr
  refine ⟨lenByte data, Memory.load s.txData 0 data, exec_txEnc hlen hidle hr, lenByte_toNat data hlen, fun j => ?_⟩
  rw [Memory.read_load hinv.txData_wf 0 data (by omega), if_pos (Nat.zero_le j), Nat.sub_zero]

/-- Settles O14: TX.ENC is disabled in SEND; in IDLE the turn that names the request's place accepts it. -/
theorem requestsWaitForIdle : Obligations.RequestsWaitForIdle := by
  constructor
  · intro s slave cmd data hsend hlen
    have hdisabled : ¬ enabled (.txEnc slave cmd data) s := by simp [enabled, hsend]
    exact disabledOperationDoesNotMove _ s (decide_eq_true hlen) hdisabled
  · intro s r ts hinv hidle hr
    obtain ⟨k, hk⟩ := List.mem_iff_getElem?.1 hr
    have hinv' : Inv { s with turns := .encoder k :: ts } := hinv.environment hinv.requests_legal
    exact ⟨k, _, step_accept hinv' rfl hidle hk, rfl, rfl, rfl, rfl⟩

/-- A move that the environment's port refuses ends the run with that refusal. -/
theorem step_of_rejected {s : State} {r : Refusal} (h : nextTurn s.toBlock = .rejected r) : step s = .refused r := by
  rw [step_eq, State.atMode, stepAt, h]
  rfl

/-- Settles O15: TX.ENC, the request port and the environment's move each test the length first. -/
theorem longRequestRefused : Obligations.LongRequestRefused := by
  intro s slave cmd data hlong
  have hnot : ¬ data.length ≤ maxLen := Nat.not_le.2 hlong
  refine ⟨exec_refused (if_pos hlong), if_neg hnot, fun rest ts => step_of_rejected ?_⟩
  rw [nextTurn_environment rfl rfl]
  exact if_neg hnot

/-! ### Sending a byte -/

/-- The block once it has handed the byte `b` to the sink (R63). -/
def Block.sent (s : Block) (b : Byte) : Block :=
  { s.txPut b with
    txPos := s.txPos + 1
    txState := if s.txPos + 1 = 7 + s.txLen.toNat then .idle else .send }

/-- R63: TX.BYTE sends the frame byte at `tx_pos`. -/
theorem exec_txByte {s : State} {b : Byte} (hsend : s.txState = .send) (hready : s.sinkReady = true)
    (hb : s.frameByte s.txPos = some b) : exec .txByte s = .next ⟨s.sent b, s.addrMode⟩ := by
  rw [exec_next, execAt, Block.execTxByte, if_pos ⟨hsend, hready⟩, hb]
  exact ⟨rfl, rfl⟩

/-- R63: on the encoder's turn in SEND the frame byte at `tx_pos` is sent. -/
theorem step_send {s : State} {k : Nat} {b : Byte} {ts : List Turn} (hturns : s.turns = .encoder k :: ts)
    (hsend : s.txState = .send) (hready : s.sinkReady = true) (hb : s.frameByte s.txPos = some b) :
    step s = .next ⟨Block.sent { s.toBlock with turns := ts } b, s.addrMode⟩ := by
  rw [step_of_run (nextTurn_encoder (.inl hturns) (encoderOp_send hsend hready))]
  exact exec_txByte hsend hready hb

/-- Settles O16: the offset says whether the byte is of the header, the payload or the trailer. -/
theorem transmitByte : Obligations.TransmitByte := by
  intro s hsend hready hpos
  obtain ⟨b, hb⟩ := Block.frameByte_isSome hpos
  have hbyte {c : Byte} {p : Nat} (hp : s.txPos = p) (hc : s.frameByte p = some c) : b = c := by
    rw [← hp, hb] at hc
    exact Option.some.inj hc
  have htrailer (i : Nat) {c : Byte} {p : Nat} (hp : p = i + s.txLen.toNat + 4)
      (hc : [hi s.txCks, lo s.txCks, endByte][i]? = some c) (h : s.txPos = p) : b = c :=
    hbyte (h.trans hp) ((s.frameByte_trailer i).trans hc)
  refine ⟨b, exec_txByte hsend hready hb, (hbyte · rfl), (hbyte · rfl), (hbyte · rfl), (hbyte · rfl),
    fun hge hlt => ?_, htrailer 0 (by omega) rfl, htrailer 1 (by omega) rfl, htrailer 2 (by omega) rfl⟩
  have hi : s.txPos - 4 < s.txLen.toNat := by omega
  have hpayload := s.frameByte_payload hi
  rw [Block.txPayload, Memory.getElem?_slice, if_pos hi] at hpayload
  exact hbyte (Nat.sub_add_cancel hge).symm hpayload

/-! ### The whole frame -/

/-- Settles O18: FrameByte reads off the frame of the latch. -/
theorem frameBytesAreEncode : Obligations.FrameBytesAreEncode :=
  fun _ p hinv hsend => Block.frameByte_eq_txFrame hinv hsend p

/-- R60, R65: once a request is accepted its whole frame is due. -/
theorem Block.txDue_accepted {s : Block} {r : Request} (hwf : Memory.wf s.txData = true)
    (hlen : r.data.length ≤ maxLen) : (s.accepted r).txDue = encodeFrame r.slave r.cmd r.data :=
  congrArg (encodeFrame r.slave r.cmd) (Memory.slice_latched hwf hlen)

/-- R26: in SEND a byte is due, so with none due the encoder is in IDLE. -/
theorem Inv.idle_of_txDue_nil {s : State} (hinv : Inv s) (hdue : s.txDue = []) : s.txState = .idle := by
  cases hst : s.txState with
  | idle => rfl
  | send =>
    rw [Block.txDue, if_pos hst, List.drop_eq_nil_iff, Block.length_txFrame] at hdue
    exact absurd (hinv.send_pos hst) (Nat.not_lt.2 hdue)

/-- R63, R65: the encoder with a byte due is in SEND, and that byte is FrameByte at `tx_pos`; the others come after. -/
theorem Inv.send_of_txDue_cons {s : State} {b : Byte} {due : List Byte} (hinv : Inv s) (hdue : s.txDue = b :: due) :
    s.txState = .send ∧ s.frameByte s.txPos = some b ∧ s.txFrame.drop (s.txPos + 1) = due := by
  cases hst : s.txState with
  | idle => simp [Block.txDue, hst] at hdue
  | send =>
    rw [Block.txDue, if_pos hst] at hdue
    refine ⟨rfl, ?_, ?_⟩
    · rw [Block.frameByte_eq_txFrame hinv hst, ← List.head?_drop, hdue, List.head?_cons]
    · rw [← List.tail_drop, hdue, List.tail_cons]

/-- R63, R64, R65: given one turn for each byte due, with the sink ready, the encoder sends exactly those bytes and is
in IDLE. -/
theorem run_encoder_txDue {due : List Byte} {s : State} {k : Nat} {ts : List Turn} (hinv : Inv s)
    (hready : s.sinkReady = true) (hdue : s.txDue = due)
    (hturns : s.turns = List.replicate due.length (.encoder k) ++ ts) :
    core.run due.length s = .next { s with
      turns := ts
      txState := .idle
      txPos := s.txPos + due.length
      hist := s.hist ++ due.map .txOut } := by
  induction due generalizing s with
  | nil =>
    have hidle := hinv.idle_of_txDue_nil hdue
    have hts : s.turns = ts := hturns
    simp [Host.Core.run, ← hidle, ← hts]
  | cons b due ih =>
    obtain ⟨hsend, hb, hrest⟩ := hinv.send_of_txDue_cons hdue
    have hstep := step_send hturns hsend hready hb
    rw [List.length_cons, run_succ_next (M := core) _ hstep,
      ih (stepKeepsInvariant _ _ hinv hstep) hready ((Block.txDue_sent _ b).trans hrest) rfl]
    simp [Block.sent, Nat.add_assoc, Nat.add_comm 1]

/-- Settles O57: the first turn accepts the request, and then its whole frame is due. -/
theorem encoderEmitsWholeFrame : Obligations.EncoderEmitsWholeFrame := by
  intro s r rs ts hinv hidle hready hreq hturns
  have hlen : r.data.length ≤ maxLen := hinv.requests_legal r (by simp [hreq])
  have hcount : 8 + r.data.length = (encodeFrame r.slave r.cmd r.data).length + 1 := by
    rw [length_encodeFrame]
    omega
  rw [hcount, List.replicate_succ, List.cons_append] at hturns
  have hstep := step_accept hinv hturns hidle (by rw [hreq]; rfl)
  have hrun := run_encoder_txDue (stepKeepsInvariant _ _ hinv hstep) hready
    (Block.txDue_accepted hinv.txData_wf hlen) rfl
  rw [hcount]
  refine ⟨_, (run_succ_next (M := core) _ hstep).trans hrun, rfl, rfl, ?_, rfl, rfl, ?_⟩
  · simp [Block.accepted, hreq]
  · simp [Block.accepted]

/-! ### The mode -/

/-- Settles O19: only RX.EOF looks at the mode, and it is no operation of the encoder. -/
theorem encoderIgnoresAddrMode : Obligations.EncoderIgnoresAddrMode := by
  intro i s t m hi h
  have hne : i ≠ .rxEof := by
    rintro rfl
    cases hi
  rw [exec_next, execAt_mode hne s.addrMode m] at h
  exact exec_next.2 ⟨h.1, rfl⟩

/-! ### No fault under the invariant -/

/-- An operation with operands that R49, R52 and R62 rule out does nothing or is refused. -/
theorem execAt_illFormed_ne_fault {i : Instr} {m : AddrMode} {s : Block} {f : Fault} (hwf : i.wellFormed = false) :
    execAt m i s ≠ .fault f := by
  cases i with
  | rxSkip b =>
    have hb : b = startByte := by simpa [Instr.wellFormed] using hwf
    rw [execAt, Block.execRxSkip, if_pos hb]
    nofun
  | rxEofBad e =>
    have he : e = endByte := by simpa [Instr.wellFormed] using hwf
    rw [execAt, Block.execRxEofBad, if_pos he]
    nofun
  | txEnc slave cmd data =>
    have hlong : maxLen < data.length := by simpa [Instr.wellFormed] using hwf
    rw [execAt, Block.execTxEnc, if_pos hlong]
    nofun
  | cks slave cmd len data =>
    rw [execAt, Block.execCks, if_neg (of_decide_eq_false hwf)]
    nofun
  | cksCheck slave cmd len data cand =>
    rw [execAt, Block.execCksCheck, if_neg (of_decide_eq_false hwf)]
    nofun
  | _ => cases hwf

/-- R10, R63, R72: under the invariant an operation completes if it is enabled, and none faults. -/
theorem Inv.exec_ne_fault {s : State} (hinv : Inv s) (i : Instr) (f : Fault) : exec i s ≠ .fault f := by
  cases hwf : i.wellFormed with
  | false =>
    rw [exec_eq, State.atMode]
    cases ho : execAt s.addrMode i s.toBlock with
    | fault g => exact absurd ho (execAt_illFormed_ne_fault hwf)
    | next | refused => nofun
  | true =>
    by_cases hen : enabled i s
    · obtain ⟨t, -, ht, -⟩ := enabledOperationCompletes i s hwf hinv hen
      rw [ht]
      nofun
    · rw [disabledOperationDoesNotMove i s hwf hen]
      nofun

/-- Settles O45: the operation that a turn runs does so in a state with the invariant; a move is no fault. -/
theorem noFaultUnderInvariant : Obligations.NoFaultUnderInvariant := by
  intro s f hinv
  cases hturn : nextTurn s.toBlock with
  | run i u =>
    rw [step_of_run hturn]
    exact (Inv.nextTurn_run hinv hturn).exec_ne_fault i f
  | moved u =>
    rw [step_of_moved hturn]
    nofun
  | rejected r =>
    rw [step_of_rejected hturn]
    nofun

/-! ### The observers right after reset -/

/-- R65, R79, R81, R96: the history of a machine right after reset is the one event `Reset`, whatever moves the
environment has to come, so every observer begins. -/
theorem observersAgree_ofProgram (m : AddrMode) (lines : List EnvMove) :
    WireExact (State.ofProgram m lines) ∧ DecoderExact (State.ofProgram m lines) ∧
      OnlyAdmitted (State.ofProgram m lines) := by
  have hhist : (State.ofProgram m lines).hist = [.reset] := rfl
  refine ⟨rfl, ⟨[], rfl, rfl⟩, fun p hp => ?_⟩
  simp [hhist] at hp

/-- Settles O52: the machine after reset is the one of an empty program, at the mode it was constructed with. -/
theorem observersAgreeAtReset : Obligations.ObserversAgreeAtReset :=
  ⟨observersAgree_ofProgram Config.addrMode [], observersAgree_ofProgram⟩

end Sys2Proof.Machine

/-! ## The decoder (spec/42_decoder.md): DECODE on frames, the effect of each step, and the decoder's turns -/

namespace Sys2Proof.Machine

/-! ### The checks of VALIDATE -/

/-- R75, R76, R84: the checks in their order of priority, each as a proposition. -/
theorem verdict_eq (m : AddrMode) (slave cmd len e : Byte) (data : List Byte) (cand : Word) :
    verdict m slave cmd len data cand e =
      if e ≠ endByte then some .endMismatch
      else if ¬ addrOk m slave = true then some .addressMismatch
      else if cks slave cmd len data ≠ cand then some .checksumMismatch
      else none := by
  simp only [verdict, cksCheck_eq_false, ne_eq, Bool.not_eq_true]

/-- Settles O10: `Addressed(a)` compares the slave byte with `a`, `Promiscuous` compares nothing. -/
theorem addressFilter : Obligations.AddressFilter :=
  ⟨fun _ _ => beq_iff_eq, fun _ => rfl⟩

/-! ### DECODE on a complete frame -/

/-- R79, R84: what becomes of a complete candidate frame, by the order of the checks. -/
theorem frameOutcome_eq (m : AddrMode) (slave cmd len e : Byte) (data : List Byte) (cand : Word) :
    frameOutcome m slave cmd len data cand e =
      if e ≠ endByte then .disc .endMismatch
      else if ¬ addrOk m slave = true then .disc .addressMismatch
      else if cks slave cmd len data ≠ cand then .disc .checksumMismatch
      else .pkt ⟨slave, cmd, len, data⟩ := by
  rw [frameOutcome, verdict_eq]
  split_ifs <;> rfl

/-- The bytes of a frame with the fields of `p`, with the checksum bytes `h` and `l` and the end byte `e`. -/
def Packet.wire (p : Packet) (h l e : Byte) : List Byte :=
  startByte :: p.slave :: p.cmd :: p.len :: (p.payload ++ [h, l, e])

/-- R59: the frame of a request has its own length byte and checksum, and the right end byte. -/
theorem encodeFrame_eq_wire (slave cmd : Byte) (data : List Byte) :
    encodeFrame slave cmd data = Packet.wire ⟨slave, cmd, lenByte data, data⟩
      (hi (cks slave cmd (lenByte data) data)) (lo (cks slave cmd (lenByte data) data)) endByte := rfl

/-- R79: DECODE brings one complete candidate frame to one outcome, and is in SEEK_START again. -/
theorem decodeStream_wire (m : AddrMode) {p : Packet} (h l e : Byte) (hlen : p.payload.length = p.len.toNat) :
    decodeStream m (p.wire h l e) =
      ([frameOutcome m p.slave p.cmd p.len p.payload (join h l) e], .seekStart) := by
  rw [Packet.wire, decodeStream_frame (frame_complete m _ _ _ h l e _ [] hlen), decodeStream_nil]

/-- R59, R79: a frame of ENCODE has the right end byte and checksum, so the address filter alone decides on it. -/
theorem decodeStream_encodeFrame (m : AddrMode) (slave cmd : Byte) {data : List Byte} (hlen : data.length ≤ maxLen) :
    decodeStream m (encodeFrame slave cmd data) =
      ([if addrOk m slave = true then .pkt ⟨slave, cmd, lenByte data, data⟩ else .disc .addressMismatch],
        .seekStart) := by
  rw [encodeFrame_eq_wire, decodeStream_wire m _ _ _ (lenByte_toNat data hlen).symm, join_hi_lo, frameOutcome_eq]
  simp only [ne_eq, not_true_eq_false, if_false, ite_not]

/-- Settles O29: the bytes before the frame are skipped, and the address filter admits it. -/
theorem frameRoundTrip : Obligations.FrameRoundTrip := by
  intro m slave cmd data before hlen haddr hbefore
  rw [decodeStream_garbage m hbefore, decodeStream_encodeFrame m slave cmd hlen, if_pos haddr]
  rfl

/-- Settles O30: the address filter rejects the frame of another node; the second half is R80 for `Promiscuous`. -/
theorem foreignFrameDiscarded : Obligations.ForeignFrameDiscarded := by
  intro a slave cmd data hlen
  refine ⟨fun hne => ?_, fun before hbefore => frameRoundTrip .promiscuous slave cmd data before hlen rfl hbefore⟩
  have hforeign : ¬ addrOk (.addressed a) slave = true := (addressFilter.1 a slave).not.2 hne
  rw [decodeStream_encodeFrame _ slave cmd hlen, if_neg hforeign]

/-- R79: FRAME needs three header bytes, then as many payload bytes as the length byte says and three more. -/
theorem frame_eq_none {m : AddrMode} {xs : List Byte}
    (h : ∀ (s c l : Byte) (ys : List Byte), xs = s :: c :: l :: ys → ys.length < l.toNat + 3) : frame m xs = none := by
  by_contra hsome
  obtain ⟨⟨o, rest⟩, hf⟩ := Option.ne_none_iff_exists'.1 hsome
  obtain ⟨s, c, l, h', k, e, d, hd, hxs, -⟩ := frame_inv hf
  have hshort := h s c l _ hxs
  simp only [List.length_append, List.length_cons] at hshort
  omega

/-- Settles O28: DECODE's equations by the first byte, FRAME's by whether the candidate frame is complete. -/
theorem decodeEquations : Obligations.DecodeEquations := by
  intro m
  refine ⟨decodeStream_nil m, fun b xs hb => decodeStream_skip m hb xs, fun xs hf => decodeStream_pending hf,
    fun xs rest o hf => decodeStream_frame hf, fun xs hshort => frame_eq_none ?_,
    fun s c l ys hshort => frame_eq_none ?_, fun s c l h k e d rest hd => ?_⟩
  · rintro s c l ys rfl
    simp only [List.length_cons] at hshort
    omega
  · rintro s' c' l' ys' ⟨⟩
    exact hshort
  · rw [frame_complete m s c l h k e d rest hd, frameOutcome_eq]
    rfl

/-! ### Frames delimited by their own length byte -/

/-- R82: a well-delimited list is a complete candidate frame after its start byte. -/
theorem wellDelimited_inv {f : List Byte} (hf : wellDelimited f) :
    ∃ (p : Packet) (h l e : Byte), p.payload.length = p.len.toNat ∧ f = p.wire h l e := by
  obtain ⟨hstart, len, hlen, hlength⟩ := hf
  match f, hstart, hlen, hlength with
  | _ :: slave :: cmd :: _ :: ys, rfl, rfl, hlength =>
    have hys : ys.length = len.toNat + 3 := by
      simp only [List.length_cons] at hlength
      omega
    obtain ⟨h, l, e, htrailer⟩ := List.length_eq_three.1 (show (ys.drop len.toNat).length = 3 by simp [hys])
    refine ⟨⟨slave, cmd, len, ys.take len.toNat⟩, h, l, e, by simp [hys], ?_⟩
    rw [Packet.wire, ← htrailer, List.take_append_drop]

/-- R82: DECODE brings a well-delimited list to one outcome, whatever its other bytes. -/
theorem decodeStream_wellDelimited (m : AddrMode) {f : List Byte} (hf : wellDelimited f) :
    ∃ o : FrameOut, decodeStream m f = ([o], .seekStart) := by
  obtain ⟨p, h, l, e, hlen, rfl⟩ := wellDelimited_inv hf
  exact ⟨_, decodeStream_wire m h l e hlen⟩

/-- Settles O31, by induction on the list of frames: after each of them DECODE is in SEEK_START again. -/
theorem wellDelimitedFramesKeepSync : Obligations.WellDelimitedFramesKeepSync := by
  intro m fs hfs
  induction fs with
  | nil => exact ⟨rfl, rfl, rfl⟩
  | cons f fs ih =>
    obtain ⟨o, hf⟩ := decodeStream_wellDelimited m (hfs f (by simp))
    obtain ⟨hend, hcount, houts⟩ := ih fun g hg => hfs g (by simp [hg])
    have happend : decodeStream m (f :: fs).flatten =
        (o :: (decodeStream m fs.flatten).1, (decodeStream m fs.flatten).2) := by
      rw [List.flatten_cons, decodeStream_append (by rw [hf]), hf]
      rfl
    rw [happend]
    refine ⟨hend, by simp [hcount], ?_⟩
    rw [List.map_cons, List.flatten_cons, hf, ← houts]
    rfl

/-! ### The effect of each step -/

/-- R49, R67: the machine's answer to an enabled byte step takes the head byte, records it, leaves the rest of the
stream and goes on. -/
theorem withMode_onByte {s : State} {st : RxState} {b : Byte} {rest : List Byte} {k : Block → BlockOutcome}
    (hst : s.rxState = st) (hin : s.rxIn = b :: rest) :
    withMode s.addrMode (onByte st b k s.toBlock) =
      withMode s.addrMode (k { s.toBlock with rxIn := rest, hist := s.hist ++ [.rxTake b] }) := by
  rw [onByte_enabled hst (by rw [hin]; rfl), Block.rxTake_eq _ b rest hin]

/-- Settles O5: the start byte selects RX.SOF, every other byte RX.SKIP. -/
theorem seekStartStep : Obligations.SeekStartStep := by
  intro s b rest hst hin
  by_cases hb : b = 0x3A
  · subst hb
    exact withMode_onByte hst hin
  · rw [if_neg hb, if_neg hb]
    exact (congrArg (withMode s.addrMode) (if_neg hb)).trans (withMode_onByte hst hin)

/-- Settles O6: each of the three is a byte step of its own state. -/
theorem headerSteps : Obligations.HeaderSteps :=
  fun _ _ _ hin => ⟨(withMode_onByte · hin), (withMode_onByte · hin), (withMode_onByte · hin)⟩

/-- R72: RX.DATA stores the byte in the cell `rx_idx`, provided that it exists. -/
theorem exec_rxData_eq {s : State} {b : Byte} {rest : List Byte} (hst : s.rxState = .payload)
    (hin : s.rxIn = b :: rest) (hidx : s.rxIdx < maxLen) :
    exec (.rxData b) s = .next { s with
      rxIn := rest
      hist := s.hist ++ [.rxTake b]
      stage := Memory.write s.stage s.rxIdx b
      rxIdx := s.rxIdx + 1
      rxState := if s.rxIdx + 1 = s.rxLen.toNat then .cksHi else .payload } :=
  (withMode_onByte hst hin).trans (congrArg (withMode s.addrMode) (if_pos hidx))

/-- Settles O7: the cell `rx_idx` exists under the invariant, and the write changes it alone. -/
theorem payloadStep : Obligations.PayloadStep :=
  fun s b _ hinv hst hin => ⟨_, exec_rxData_eq hst hin (hinv.rxIdx_lt_maxLen hst),
    Memory.read_write hinv.stage_wf s.rxIdx b⟩

/-- R73: RX.CKSH writes the high half of `rx_cks`. -/
theorem exec_rxCksh {s : State} {b : Byte} {rest : List Byte} (hst : s.rxState = .cksHi) (hin : s.rxIn = b :: rest) :
    exec (.rxCksh b) s = .next { s with
      rxIn := rest, hist := s.hist ++ [.rxTake b], rxCks := setHi s.rxCks b, rxState := .cksLo } :=
  withMode_onByte hst hin

/-- R74: RX.CKSL writes the low half of `rx_cks`. -/
theorem exec_rxCksl {s : State} {b : Byte} {rest : List Byte} (hst : s.rxState = .cksLo) (hin : s.rxIn = b :: rest) :
    exec (.rxCksl b) s = .next { s with
      rxIn := rest, hist := s.hist ++ [.rxTake b], rxCks := setLo s.rxCks b, rxState := .validate } :=
  withMode_onByte hst hin

/-- Settles O8: the halves of a join are the bytes joined. -/
theorem checksumByteSteps : Obligations.ChecksumByteSteps :=
  fun _ _ _ hin => ⟨fun hst => ⟨_, exec_rxCksh hst hin, hi_join _ _, lo_join _ _⟩,
    fun hst => ⟨_, exec_rxCksl hst hin, lo_join _ _, hi_join _ _⟩⟩

/-- R73, R74: the low half that RX.CKSH leaves is the one RX.CKSL writes. -/
theorem setLo_setHi (v : Word) (h l : Byte) : setLo (setHi v h) l = join h l := by
  rw [setLo, setHi, hi_join]

/-- Settles O60: the register ends as the join of the two bytes. -/
theorem candidateChecksumAssembled : Obligations.CandidateChecksumAssembled := by
  intro s h l rest hst hin
  refine ⟨_, _, exec_rxCksh hst hin, hi_join _ _, ?_, join_toNat h l⟩
  rw [exec_rxCksl rfl rfl, setLo_setHi, List.append_assoc]
  rfl

/-- R75, R84: VALIDATE presents the candidate when it passes all three checks, else records the first that fails. -/
theorem Block.judged_eq (m : AddrMode) (s : Block) (e : Byte) :
    s.judged m e = { s with
      rxState := if e = endByte ∧ addrOk m s.rxSlave = true ∧ cks s.rxSlave s.rxCmd s.rxLen s.rxPayload = s.rxCks
        then .emit else .seekStart
      hist := s.hist ++
        (if e ≠ endByte then [.discard .endMismatch]
         else if ¬ addrOk m s.rxSlave = true then [.discard .addressMismatch]
         else if ¬ cks s.rxSlave s.rxCmd s.rxLen s.rxPayload = s.rxCks then [.discard .checksumMismatch]
         else []) } := by
  rw [Block.judged, Block.verdict, verdict_eq]
  by_cases he : e = endByte
  · by_cases haddr : addrOk m s.rxSlave = true
    · by_cases hsum : cks s.rxSlave s.rxCmd s.rxLen s.rxPayload = s.rxCks
      · simp [he, haddr, hsum]
      · simp [he, haddr, hsum, Block.discard_eq]
    · simp [he, haddr, Block.discard_eq]
  · simp [he, Block.discard_eq]

/-- R75: in VALIDATE the head byte, whatever its value, is taken and the candidate judged. -/
theorem exec_validate {s : State} {e : Byte} {rest : List Byte} (hst : s.rxState = .validate)
    (hin : s.rxIn = e :: rest) :
    exec (if e = endByte then .rxEof else .rxEofBad e) s = .next
      ⟨Block.judged s.addrMode { s.toBlock with rxIn := rest, hist := s.hist ++ [.rxTake e] } e, s.addrMode⟩ := by
  by_cases he : e = endByte
  · subst he
    exact withMode_onByte hst hin
  · rw [if_neg he, Block.judged_bad he]
    exact (congrArg (withMode s.addrMode) (if_neg he)).trans (withMode_onByte hst hin)

/-- Settles O9: VALIDATE takes the byte and judges the candidate. -/
theorem validateStep : Obligations.ValidateStep := by
  intro s e rest hst hin addr sum
  rw [show (0x0D : Byte) = endByte from rfl, exec_validate hst hin, Block.judged_eq]
  rfl

/-- Settles O11: an accepting sink takes the packet; otherwise neither the decoder nor a byte has an operation. -/
theorem acceptStep : Obligations.AcceptStep := by
  intro s hst
  refine ⟨exec_rxAccept hst, fun hready => ⟨decoderOp_waiting (.inr ⟨hst, hready⟩), fun b => ?_⟩⟩
  rw [hst]
  rfl

/-! ### The decoder's turns -/

/-- A run goes on from where its first part ends. -/
theorem run_add {M : Host.Core} {s t : M.State} (n k : Nat) (h : M.run n s = .next t) :
    M.run (n + k) s = M.run k t := by
  induction n generalizing s with
  | zero =>
    cases h
    rw [Nat.zero_add]
  | succ n ih =>
    rw [Nat.add_right_comm]
    cases hstep : M.step s with
    | next u =>
      rw [run_succ_next n hstep] at h
      rw [run_succ_next (n + k) hstep, ih h]
    | fault f =>
      rw [run_succ_fault n hstep] at h
      cases h
    | refused r =>
      rw [run_succ_refused n hstep] at h
      cases h

/-- R19: `Stage` has a cell for every payload byte that a length byte can ask for. -/
theorem toNat_le_maxLen (b : Byte) : b.toNat ≤ maxLen :=
  Nat.le_of_lt_succ b.isLt

/-- R67, R93: a run whose first turn is the decoder's runs the operation that `rx_state` and the head byte select. -/
theorem run_decoder_byte {s t : State} {b : Byte} {rest : List Byte} {ts : List Turn} {i : Instr} (n : Nat)
    (hturns : s.turns = .decoder :: ts) (hin : s.rxIn = b :: rest) (hdec : decode (.byte s.rxState b) = .ok i)
    (hexec : exec i { s with turns := ts } = .next t) : core.run (n + 1) s = core.run n t :=
  run_succ_next (M := core) n ((stepRunsSelectedByte s b rest ts i (.inl hturns) hin hdec).trans hexec)

/-- R68 to R71: four turns take the start byte and the header. -/
theorem run_header {s : State} {slave cmd len : Byte} {rest : List Byte} {ts : List Turn}
    (hst : s.rxState = .seekStart) (hin : s.rxIn = startByte :: slave :: cmd :: len :: rest)
    (hturns : s.turns = List.replicate 4 .decoder ++ ts) :
    core.run 4 s = .next { s with
      rxSlave := slave
      rxCmd := cmd
      rxLen := len
      rxIdx := 0
      rxState := if len = 0 then .cksHi else .payload
      rxIn := rest
      turns := ts
      hist := s.hist ++ [startByte, slave, cmd, len].map .rxTake } := by
  rw [run_decoder_byte 3 hturns hin (by rw [hst]; rfl) (seekStartStep { s with turns := _ } _ _ hst hin),
    run_decoder_byte 2 rfl rfl rfl ((headerSteps _ _ _ rfl).1 rfl),
    run_decoder_byte 1 rfl rfl rfl ((headerSteps _ _ _ rfl).2.1 rfl),
    run_decoder_byte 0 rfl rfl rfl ((headerSteps _ _ _ rfl).2.2 rfl)]
  simp [Host.Core.run]

/-- R72: one turn for each payload byte still to come stores them all, one cell after the other. -/
theorem run_payload {data : List Byte} {s : State} {rest : List Byte} {ts : List Turn}
    (hst : s.rxState = if s.rxIdx = s.rxLen.toNat then .cksHi else .payload)
    (hidx : s.rxIdx + data.length = s.rxLen.toNat) (hin : s.rxIn = data ++ rest)
    (hturns : s.turns = List.replicate data.length .decoder ++ ts) :
    core.run data.length s = .next { s with
      stage := Memory.load s.stage s.rxIdx data
      rxIdx := s.rxIdx + data.length
      rxState := .cksHi
      rxIn := rest
      turns := ts
      hist := s.hist ++ data.map .rxTake } := by
  induction data generalizing s with
  | nil =>
    have hdone : s.rxState = .cksHi := hst.trans (if_pos hidx)
    have hrest : s.rxIn = rest := hin
    have hts : s.turns = ts := hturns
    simp [Host.Core.run, Memory.load, ← hdone, ← hrest, ← hts]
  | cons b data ih =>
    rw [List.length_cons] at hidx
    have hpayload : s.rxState = .payload := hst.trans (if_neg (by omega))
    have hcell : s.rxIdx < maxLen := Nat.lt_of_lt_of_le (by omega) (toNat_le_maxLen s.rxLen)
    rw [List.length_cons, run_decoder_byte _ hturns hin (by rw [hpayload]; rfl)
      (exec_rxData_eq (s := { s with turns := _ }) hpayload hin hcell), ih rfl (by simp; omega) rfl rfl]
    simp [Memory.load, Nat.add_assoc, Nat.add_comm 1]

/-- R73 to R75: three turns take the checksum and the end byte, and VALIDATE judges the candidate. -/
theorem run_trailer {s : State} {h l e : Byte} {rest : List Byte} {ts : List Turn}
    (hst : s.rxState = .cksHi) (hin : s.rxIn = h :: l :: e :: rest)
    (hturns : s.turns = List.replicate 3 .decoder ++ ts) :
    core.run 3 s = .next ⟨Block.judged s.addrMode { s.toBlock with
      rxCks := join h l
      rxState := .validate
      rxIn := rest
      turns := ts
      hist := s.hist ++ [h, l, e].map .rxTake } e, s.addrMode⟩ := by
  have hdec : decode (.byte .validate e) = .ok (if e = endByte then .rxEof else .rxEofBad e) :=
    (apply_ite Except.ok _ _ _).symm
  rw [run_decoder_byte 2 hturns hin (by rw [hst]; rfl) (exec_rxCksh (s := { s with turns := _ }) hst hin),
    run_decoder_byte 1 rfl rfl rfl (exec_rxCksl rfl rfl),
    run_decoder_byte 0 rfl rfl hdec (exec_validate rfl rfl)]
  simp [Host.Core.run, setLo_setHi]

/-- The block in VALIDATE once it has taken the frame `p.wire h l e` but judged nothing, with the bytes `rest` and the
turns `ts` left. -/
def Block.received (s : Block) (p : Packet) (h l e : Byte) (rest : List Byte) (ts : List Turn) : Block :=
  { s with
    rxState := .validate
    rxSlave := p.slave
    rxCmd := p.cmd
    rxLen := p.len
    stage := Memory.load s.stage 0 p.payload
    rxIdx := p.payload.length
    rxCks := join h l
    rxIn := rest
    turns := ts
    hist := s.hist ++ (p.wire h l e).map .rxTake }

/-- R67 to R75: one turn for each byte of a complete frame takes them all, and VALIDATE judges the candidate. -/
theorem run_frame {s : State} {p : Packet} {h l e : Byte} {rest : List Byte} {ts : List Turn}
    (hst : s.rxState = .seekStart) (hlen : p.payload.length = p.len.toNat) (hin : s.rxIn = p.wire h l e ++ rest)
    (hturns : s.turns = List.replicate (7 + p.payload.length) .decoder ++ ts) :
    core.run (7 + p.payload.length) s =
      .next ⟨(s.received p h l e rest ts).judged s.addrMode e, s.addrMode⟩ := by
  have hcount : 7 + p.payload.length = 4 + (p.payload.length + 3) := by omega
  have hzero : p.len = 0 ↔ 0 = p.len.toNat := by rw [← BitVec.toNat_inj, eq_comm]; rfl
  have hbytes : s.rxIn = startByte :: p.slave :: p.cmd :: p.len :: (p.payload ++ h :: l :: e :: rest) := by
    simp [hin, Packet.wire]
  rw [hcount, List.replicate_add, List.replicate_add, List.append_assoc, List.append_assoc] at hturns
  rw [hcount, run_add (M := core) 4 _ (run_header hst hbytes hturns),
    run_add (M := core) p.payload.length 3 (run_payload (if_congr hzero rfl rfl) (by simpa using hlen) rfl rfl),
    run_trailer rfl rfl rfl]
  simp [Block.received, Packet.wire]

section Received
variable {m : AddrMode} {s : Block} {p : Packet} (h l e : Byte) (rest : List Byte) (ts : List Turn)

/-- R23, R72: the candidate received is `p`, its payload read back from the cells it was stored in. -/
theorem Block.received_candidate (hwf : Memory.wf s.stage = true) (hlen : p.payload.length = p.len.toNat) :
    (s.received p h l e rest ts).candidate = p := by
  have hslice := Memory.slice_load hwf p.payload (hlen.trans_le (toNat_le_maxLen p.len))
  rw [hlen] at hslice
  exact congrArg (Packet.mk p.slave p.cmd p.len) hslice

/-- R75: the checks on the candidate received are those on `p` and the bytes taken after it. -/
theorem Block.received_verdict (hwf : Memory.wf s.stage = true) (hlen : p.payload.length = p.len.toNat) :
    (s.received p h l e rest ts).verdict m e =
      Sys2Proof.Machine.verdict m p.slave p.cmd p.len p.payload (join h l) e := by
  have hpayload : (s.received p h l e rest ts).rxPayload = p.payload :=
    congrArg Packet.payload (Block.received_candidate h l e rest ts hwf hlen)
  rw [Block.verdict, hpayload]
  rfl

end Received

/-- R75: a candidate that passes the checks is presented. -/
theorem Block.judged_admitted {m : AddrMode} {s : Block} {e : Byte} (h : s.verdict m e = none) :
    s.judged m e = { s with rxState := .emit } := by
  rw [Block.judged, h]

/-- R77: on the decoder's turn in EMIT an accepting sink takes the candidate. -/
theorem run_handOff {s : State} {p : Packet} {ts : List Turn} (hturns : s.turns = .decoder :: ts)
    (hst : s.rxState = .emit) (hready : s.pktReady = true) (hcandidate : s.candidate = p) :
    core.run 1 s = .next { s with turns := ts, rxState := .seekStart, hist := s.hist ++ [.pktOut p] } := by
  subst hcandidate
  exact run_succ_next (M := core) 0
    (((stepRunsPortOperation s ts).1 (.inl hturns) hst hready).trans (exec_rxAccept hst hready))

/-- R75, R77: with one turn more, a frame that passes the checks is handed off to an accepting sink. -/
theorem run_admittedFrame {s : State} {p : Packet} {h l e : Byte} {rest : List Byte} {ts : List Turn} (hinv : Inv s)
    (hst : s.rxState = .seekStart) (hready : s.pktReady = true) (hlen : p.payload.length = p.len.toNat)
    (hin : s.rxIn = p.wire h l e ++ rest)
    (hturns : s.turns = List.replicate (8 + p.payload.length) .decoder ++ ts)
    (hadmit : verdict s.addrMode p.slave p.cmd p.len p.payload (join h l) e = none) :
    core.run (8 + p.payload.length) s = .next ⟨{ s.received p h l e rest ts with
      rxState := .seekStart
      hist := s.hist ++ (p.wire h l e).map .rxTake ++ [.pktOut p] }, s.addrMode⟩ := by
  have hcount : 8 + p.payload.length = 7 + p.payload.length + 1 := by omega
  rw [hcount, List.replicate_add, List.append_assoc] at hturns
  have hframe := run_frame hst hlen hin hturns
  rw [Block.judged_admitted ((Block.received_verdict h l e rest _ hinv.stage_wf hlen).trans hadmit)] at hframe
  rw [hcount, run_add (M := core) _ 1 hframe]
  exact run_handOff rfl rfl hready (Block.received_candidate h l e rest ts hinv.stage_wf hlen)

/-- Settles O58: a frame of ENCODE has the right end byte and checksum, and the address filter admits it. -/
theorem decoderDeliversFrame : Obligations.DecoderDeliversFrame := by
  intro s slave cmd data rest ts hinv hst hready hlen haddr hin hturns
  rw [encodeFrame_eq_wire] at hin ⊢
  have hrun := run_admittedFrame hinv hst hready (lenByte_toNat data hlen).symm hin hturns
    (verdict_eq_none.2 ⟨rfl, haddr, (join_hi_lo _).symm⟩)
  exact ⟨_, hrun, rfl, rfl, rfl, rfl, rfl, rfl⟩

end Sys2Proof.Machine

/-! ## Reset (spec/70_reset_and_hazards.md) -/

namespace Sys2Proof.Machine

/-! ### The effect of RESET -/

/-- R96: the part of RESET's effect the rule specifies: the control states, the event, and the environment's fields,
which stay. -/
structure ResetTo (s t : Block) : Prop where
  rxState : t.rxState = .seekStart
  txState : t.txState = .idle
  hist : t.hist = s.hist ++ [.reset]
  rxIn : t.rxIn = s.rxIn
  requests : t.requests = s.requests
  sinkReady : t.sinkReady = s.sinkReady
  pktReady : t.pktReady = s.pktReady

/-- R96: RESET has a next state, whatever the block. -/
theorem Block.execReset_isNext (s : Block) : ∃ t : Block, s.execReset = .next t := ⟨_, rfl⟩

theorem Block.execReset_next {s t : Block} (h : s.execReset = .next t) : ResetTo s t := by
  cases h
  exact ⟨rfl, rfl, rfl, rfl, rfl, rfl, rfl⟩

theorem exec_reset_next {s t : State} (h : exec .reset s = .next t) :
    ResetTo s.toBlock t.toBlock ∧ t.addrMode = s.addrMode :=
  (exec_next.1 h).imp_left Block.execReset_next

/-- R96, R98: the state RESET reaches is the same for every `ADDR_MODE`. -/
theorem exec_reset_atMode {s t : State} (h : exec .reset s = .next t) (m : AddrMode) :
    exec .reset { s with addrMode := m } = .next { t with addrMode := m } :=
  exec_next.2 ⟨(exec_next.1 h).1, rfl⟩

/-! ### The units' operations in the control states RESET sets -/

/-- R49: in SEEK_START the head byte is a start byte, or is skipped. -/
theorem decoderOp_seekStart {s : Block} {b : Byte} {rest : List Byte} (hst : s.rxState = .seekStart)
    (hin : s.rxIn = b :: rest) : decoderOp s = some (if b = startByte then .rxSof else .rxSkip b) := by
  rw [decoderOp_byte (by simp [hst]) hin, hst, decode, decodeByte]
  split <;> rfl

/-- R49: whatever the stream, SEEK_START has the two scanning operations only. -/
theorem decoderOp_seekStart_scans {s : Block} {i : Instr} (hst : s.rxState = .seekStart) (h : decoderOp s = some i) :
    i = .rxSof ∨ ∃ b : Byte, i = .rxSkip b := by
  cases hin : s.rxIn with
  | nil => simp [decoderOp_empty (by simp [hst]) hin] at h
  | cons b rest =>
    rw [decoderOp_seekStart hst hin] at h
    cases h
    split
    · exact .inl rfl
    · exact .inr ⟨b, rfl⟩

/-- R60: the encoder in IDLE can only take a request that is presented. -/
theorem encoderOp_idle_presented {s : Block} {k : Nat} {i : Instr} (hidle : s.txState = .idle)
    (h : encoderOp k s = some i) : ∃ r ∈ s.requests, i = .txEnc r.slave r.cmd r.data := by
  cases hr : s.requests[k]? with
  | none => simp [encoderOp, hidle, hr] at h
  | some r =>
    rw [encoderOp_idle hidle hr] at h
    cases h
    exact ⟨r, List.mem_of_getElem? hr, rfl⟩

/-! ### What an observer sees of a reset -/

/-- R97: `Reset` is no outcome of a candidate frame. -/
theorem outcomes_reset (h : List Event) : outcomes (h ++ [.reset]) = outcomes h := by
  rw [outcomes_append]
  exact List.append_nil _

/-- R97: `Reset` puts no byte on the wire. -/
theorem wireBytes_reset (h : List Event) : wireBytes (h ++ [.reset]) = wireBytes h :=
  (List.filterMap_append ..).trans (List.append_nil _)

/-! ### The obligations -/

/-- Settles O35: of a reset the history keeps only `Reset` itself, and in SEEK_START and IDLE the units go by the
streams RESET leaves alone. -/
theorem resetAbandonsFrames : Obligations.ResetAbandonsFrames := by
  intro s t h
  obtain ⟨hreset, -⟩ := exec_reset_next h
  have hne : t.rxState ≠ .emit := by simp [hreset.rxState]
  refine ⟨?_, ?_, hreset.rxIn, hreset.requests, hreset.rxState, hreset.txState,
    fun b rest hin => ?_, fun hin => ?_, fun hreq k => ?_⟩
  · rw [hreset.hist, outcomes_reset]
  · rw [hreset.hist, wireBytes_reset]
  · exact decoderOp_seekStart hreset.rxState (hreset.rxIn.trans hin)
  · exact decoderOp_empty hne (hreset.rxIn.trans hin)
  · refine encoderOp_waiting ?_ k
    rw [if_pos hreset.txState]
    exact hreset.requests.trans hreq

/-- Settles O32: RESET's effect, and the operations SEEK_START and IDLE leave to the units. -/
theorem resetStep : Obligations.ResetStep := by
  intro s
  obtain ⟨t, ht⟩ := Block.execReset_isNext s.toBlock
  have h : exec .reset s = .next ⟨t, s.addrMode⟩ := exec_next.2 ⟨ht, rfl⟩
  obtain ⟨hreset, hmode⟩ := exec_reset_next h
  refine ⟨_, h, hreset.rxState, hreset.txState, hreset.hist, hmode, hreset.rxIn, hreset.requests, hreset.sinkReady,
    hreset.pktReady, fun i => decoderOp_seekStart_scans hreset.rxState, fun k i hop => ?_, exec_reset_atMode h⟩
  rw [← hreset.requests]
  exact encoderOp_idle_presented hreset.txState hop

/-- Settles O34: construction puts the one initial block beside the mode, and the machine after reset is so
constructed. -/
theorem resetState : Obligations.ResetState :=
  ⟨fun _ => ⟨rfl, rfl, rfl, rfl, rfl, rfl, rfl, rfl⟩, fun _ _ => rfl, rfl⟩

end Sys2Proof.Machine
